-- ==== Sys2Proof/Word.lean ====
section
/-! DEFINITION. The words of the machine: nibbles, bytes, 12-bit addresses and 16-bit words
(spec/00_scope.md R13, spec/30_encoding.md R83). -/

namespace Sys2Proof

/-- A 4-bit opcode field: a register index x or y, or the count n (R83). -/
abbrev Nibble := BitVec 4

/-- An 8-bit value: a register, a memory cell, or the immediate kk (R83). -/
abbrev Byte := BitVec 8

/-- The 12-bit address immediate nnn (R83). -/
abbrev Addr12 := BitVec 12

/-- A 16-bit value: pc, I, a stack entry, KEYPAD, an opcode. -/
abbrev Word := BitVec 16

/-- `zext_16` of spec/00_scope.md R14, for an address or a byte. -/
abbrev zext16 {k : Nat} (v : BitVec k) : Word := v.setWidth 16

end Sys2Proof
end

