-- ==== Sys2Proof/WellFormed.lean ====
section
/-! DEFINITION. The opcode map of spec/30_encoding.md R87 as masks and match values, and what makes an instruction
well-formed: its operands are of their fields' widths by type, so the one check left is that a no-op's word matches
no row of the map (R96). -/

namespace Sys2Proof

/-- One row of the opcode map: a word belongs to it when `word AND mask = value` (R87). -/
structure OpcodeRow where
  value : Word
  mask  : Word
  deriving DecidableEq, Repr

/-- The word belongs to the row (R87: op AND mask = match). -/
abbrev OpcodeRow.Matches (r : OpcodeRow) (w : Word) : Prop := w &&& r.mask = r.value

/-- The row of each instruction in the opcode map of R87; the no-op has none (R96). -/
def Instr.row : Instr → Option OpcodeRow
  | .cls => some ⟨0x00E0#16, 0xFFFF#16⟩
  | .ret => some ⟨0x00EE#16, 0xFFFF#16⟩
  | .jp _ => some ⟨0x1000#16, 0xF000#16⟩
  | .call _ => some ⟨0x2000#16, 0xF000#16⟩
  | .seByte _ _ => some ⟨0x3000#16, 0xF000#16⟩
  | .sneByte _ _ => some ⟨0x4000#16, 0xF000#16⟩
  | .seReg _ _ => some ⟨0x5000#16, 0xF00F#16⟩
  | .ldByte _ _ => some ⟨0x6000#16, 0xF000#16⟩
  | .addByte _ _ => some ⟨0x7000#16, 0xF000#16⟩
  | .ldReg _ _ => some ⟨0x8000#16, 0xF00F#16⟩
  | .orReg _ _ => some ⟨0x8001#16, 0xF00F#16⟩
  | .andReg _ _ => some ⟨0x8002#16, 0xF00F#16⟩
  | .xorReg _ _ => some ⟨0x8003#16, 0xF00F#16⟩
  | .addReg _ _ => some ⟨0x8004#16, 0xF00F#16⟩
  | .subReg _ _ => some ⟨0x8005#16, 0xF00F#16⟩
  | .shrReg _ _ => some ⟨0x8006#16, 0xF00F#16⟩
  | .subnReg _ _ => some ⟨0x8007#16, 0xF00F#16⟩
  | .shlReg _ _ => some ⟨0x800E#16, 0xF00F#16⟩
  | .sneReg _ _ => some ⟨0x9000#16, 0xF00F#16⟩
  | .ldI _ => some ⟨0xA000#16, 0xF000#16⟩
  | .jpV0 _ => some ⟨0xB000#16, 0xF000#16⟩
  | .rnd _ _ => some ⟨0xC000#16, 0xF000#16⟩
  | .drw _ _ _ => some ⟨0xD000#16, 0xF000#16⟩
  | .skp _ => some ⟨0xE09E#16, 0xF0FF#16⟩
  | .sknp _ => some ⟨0xE0A1#16, 0xF0FF#16⟩
  | .ldVxDt _ => some ⟨0xF007#16, 0xF0FF#16⟩
  | .ldVxK _ => some ⟨0xF00A#16, 0xF0FF#16⟩
  | .ldDtVx _ => some ⟨0xF015#16, 0xF0FF#16⟩
  | .ldStVx _ => some ⟨0xF018#16, 0xF0FF#16⟩
  | .addIVx _ => some ⟨0xF01E#16, 0xF0FF#16⟩
  | .ldFVx _ => some ⟨0xF029#16, 0xF0FF#16⟩
  | .ldBVx _ => some ⟨0xF033#16, 0xF0FF#16⟩
  | .storeRegs _ => some ⟨0xF055#16, 0xF0FF#16⟩
  | .loadRegs _ => some ⟨0xF065#16, 0xF0FF#16⟩
  | .noop _ => none

/-- The opcode map of R87: 34 rows, in the table's order. -/
def opcodeMap : List OpcodeRow :=
  [⟨0x00E0#16, 0xFFFF#16⟩, ⟨0x00EE#16, 0xFFFF#16⟩, ⟨0x1000#16, 0xF000#16⟩, ⟨0x2000#16, 0xF000#16⟩, ⟨0x3000#16, 0xF000#16⟩, ⟨0x4000#16, 0xF000#16⟩] ++
  [⟨0x5000#16, 0xF00F#16⟩, ⟨0x6000#16, 0xF000#16⟩, ⟨0x7000#16, 0xF000#16⟩, ⟨0x8000#16, 0xF00F#16⟩, ⟨0x8001#16, 0xF00F#16⟩, ⟨0x8002#16, 0xF00F#16⟩] ++
  [⟨0x8003#16, 0xF00F#16⟩, ⟨0x8004#16, 0xF00F#16⟩, ⟨0x8005#16, 0xF00F#16⟩, ⟨0x8006#16, 0xF00F#16⟩, ⟨0x8007#16, 0xF00F#16⟩, ⟨0x800E#16, 0xF00F#16⟩] ++
  [⟨0x9000#16, 0xF00F#16⟩, ⟨0xA000#16, 0xF000#16⟩, ⟨0xB000#16, 0xF000#16⟩, ⟨0xC000#16, 0xF000#16⟩, ⟨0xD000#16, 0xF000#16⟩, ⟨0xE09E#16, 0xF0FF#16⟩] ++
  [⟨0xE0A1#16, 0xF0FF#16⟩, ⟨0xF007#16, 0xF0FF#16⟩, ⟨0xF00A#16, 0xF0FF#16⟩, ⟨0xF015#16, 0xF0FF#16⟩, ⟨0xF018#16, 0xF0FF#16⟩, ⟨0xF01E#16, 0xF0FF#16⟩] ++
  [⟨0xF029#16, 0xF0FF#16⟩, ⟨0xF033#16, 0xF0FF#16⟩, ⟨0xF055#16, 0xF0FF#16⟩, ⟨0xF065#16, 0xF0FF#16⟩]

/-- Well-formed: a no-op holds a word that matches no row of the opcode map (R96); every other instruction is
well-formed by its fields' types (R83). -/
def Instr.wellFormed : Instr → Bool
  | .cls => true
  | .ret => true
  | .jp _ => true
  | .call _ => true
  | .seByte _ _ => true
  | .sneByte _ _ => true
  | .seReg _ _ => true
  | .ldByte _ _ => true
  | .addByte _ _ => true
  | .ldReg _ _ => true
  | .orReg _ _ => true
  | .andReg _ _ => true
  | .xorReg _ _ => true
  | .addReg _ _ => true
  | .subReg _ _ => true
  | .shrReg _ _ => true
  | .subnReg _ _ => true
  | .shlReg _ _ => true
  | .sneReg _ _ => true
  | .ldI _ => true
  | .jpV0 _ => true
  | .rnd _ _ => true
  | .drw _ _ _ => true
  | .skp _ => true
  | .sknp _ => true
  | .ldVxDt _ => true
  | .ldVxK _ => true
  | .ldDtVx _ => true
  | .ldStVx _ => true
  | .addIVx _ => true
  | .ldFVx _ => true
  | .ldBVx _ => true
  | .storeRegs _ => true
  | .loadRegs _ => true
  | .noop w => opcodeMap.all fun r => !decide (r.Matches w)

/-- `Instr.wellFormed` as a proposition. -/
abbrev Instr.WellFormed (i : Instr) : Prop := i.wellFormed = true

end Sys2Proof
end

