-- ==== Sys2Proof/Decode.lean ====
section
/-! DEFINITION. The decoder (spec/30_encoding.md R83, R86-R93, R96, R101), total on every word and on every byte
sequence, and after it the encoder, written from the same encodings (R84, R87). -/

namespace Sys2Proof

/-- t = op[15:12] (R83). -/
def fieldT (w : Word) : Nibble := w.extractLsb' 12 4

/-- x = op[11:8] (R83). -/
def fieldX (w : Word) : Nibble := w.extractLsb' 8 4

/-- y = op[7:4] (R83). -/
def fieldY (w : Word) : Nibble := w.extractLsb' 4 4

/-- n = op[3:0] (R83). -/
def fieldN (w : Word) : Nibble := w.extractLsb' 0 4

/-- kk = op[7:0] (R83). -/
def fieldKK (w : Word) : Byte := w.extractLsb' 0 8

/-- nnn = op[11:0] (R83). -/
def fieldNNN (w : Word) : Addr12 := w.extractLsb' 0 12

/-- Family 0x0: only the two exact words (R88). -/
def decode0 (w : Word) : Instr :=
  if w = 0x00E0#16 then .cls
  else if w = 0x00EE#16 then .ret
  else .noop w

/-- Family 0x5: only n = 0 (R89). -/
def decode5 (w : Word) : Instr :=
  if fieldN w = 0x0#4 then .seReg (fieldX w) (fieldY w) else .noop w

/-- Family 0x9: only n = 0 (R89). -/
def decode9 (w : Word) : Instr :=
  if fieldN w = 0x0#4 then .sneReg (fieldX w) (fieldY w) else .noop w

/-- Family 0x8: the sub-opcode is n (R90). -/
def decode8 (w : Word) : Instr :=
  if fieldN w = 0x0#4 then .ldReg (fieldX w) (fieldY w)
  else if fieldN w = 0x1#4 then .orReg (fieldX w) (fieldY w)
  else if fieldN w = 0x2#4 then .andReg (fieldX w) (fieldY w)
  else if fieldN w = 0x3#4 then .xorReg (fieldX w) (fieldY w)
  else if fieldN w = 0x4#4 then .addReg (fieldX w) (fieldY w)
  else if fieldN w = 0x5#4 then .subReg (fieldX w) (fieldY w)
  else if fieldN w = 0x6#4 then .shrReg (fieldX w) (fieldY w)
  else if fieldN w = 0x7#4 then .subnReg (fieldX w) (fieldY w)
  else if fieldN w = 0xE#4 then .shlReg (fieldX w) (fieldY w)
  else .noop w

/-- Family 0xE: the sub-opcode is kk (R91). -/
def decodeE (w : Word) : Instr :=
  if fieldKK w = 0x9E#8 then .skp (fieldX w)
  else if fieldKK w = 0xA1#8 then .sknp (fieldX w)
  else .noop w

/-- Family 0xF: the sub-opcode is kk (R92). -/
def decodeF (w : Word) : Instr :=
  if fieldKK w = 0x07#8 then .ldVxDt (fieldX w)
  else if fieldKK w = 0x0A#8 then .ldVxK (fieldX w)
  else if fieldKK w = 0x15#8 then .ldDtVx (fieldX w)
  else if fieldKK w = 0x18#8 then .ldStVx (fieldX w)
  else if fieldKK w = 0x1E#8 then .addIVx (fieldX w)
  else if fieldKK w = 0x29#8 then .ldFVx (fieldX w)
  else if fieldKK w = 0x33#8 then .ldBVx (fieldX w)
  else if fieldKK w = 0x55#8 then .storeRegs (fieldX w)
  else if fieldKK w = 0x65#8 then .loadRegs (fieldX w)
  else .noop w

/-- The dispatch of R86 on the top nibble. Every word has an instruction (R101); the full families are those of
R93. -/
def decodeWord (w : Word) : Instr :=
  if fieldT w = 0x0#4 then decode0 w
  else if fieldT w = 0x1#4 then .jp (fieldNNN w)
  else if fieldT w = 0x2#4 then .call (fieldNNN w)
  else if fieldT w = 0x3#4 then .seByte (fieldX w) (fieldKK w)
  else if fieldT w = 0x4#4 then .sneByte (fieldX w) (fieldKK w)
  else if fieldT w = 0x5#4 then decode5 w
  else if fieldT w = 0x6#4 then .ldByte (fieldX w) (fieldKK w)
  else if fieldT w = 0x7#4 then .addByte (fieldX w) (fieldKK w)
  else if fieldT w = 0x8#4 then decode8 w
  else if fieldT w = 0x9#4 then decode9 w
  else if fieldT w = 0xA#4 then .ldI (fieldNNN w)
  else if fieldT w = 0xB#4 then .jpV0 (fieldNNN w)
  else if fieldT w = 0xC#4 then .rnd (fieldX w) (fieldKK w)
  else if fieldT w = 0xD#4 then .drw (fieldX w) (fieldY w) (fieldN w)
  else if fieldT w = 0xE#4 then decodeE w
  else decodeF w

/-- The big-endian opcode of two consecutive bytes: the byte at the lower address is bits 15..8
(spec/20_memory.md R62). -/
def wordOfBytes (hi lo : Byte) : Word := hi ++ lo

/-- Bits 15..8 of a word: the byte at the lower address (R62). -/
def highByte (w : Word) : Byte := w.extractLsb' 8 8

/-- Bits 7..0 of a word: the byte at the higher address (R62). -/
def lowByte (w : Word) : Byte := w.extractLsb' 0 8

/-- Why a byte sequence holds no instruction. No word is ever refused (R101). -/
inductive DecodeError where
  /-- Fewer than the two bytes of an instruction are left (R80). -/
  | truncated
  deriving DecidableEq, Repr

/-- The instruction at the head of a byte sequence, with the bytes after it. Every instruction is two bytes
(R80, R98), so the only refusal is a sequence too short to hold one. -/
def decodeBytes : List Byte → Except DecodeError (Instr × List Byte)
  | hi :: lo :: rest => .ok (decodeWord (wordOfBytes hi lo), rest)
  | _ => .error .truncated

/-- The decoder as the host asks it: bit 0 of `w` is the least significant bit of the instruction's one word, and
bits at or above `nbits` are 0. -/
def decodeTableWord (nbits w : Nat) : Option Instr :=
  let op : Word := BitVec.ofNat 16 (w % 2 ^ nbits)
  match decodeBytes [highByte op, lowByte op] with
  | .ok (i, _) => some i
  | .error _ => none

/-- The word of an instruction (the encodings of R84 and R87). -/
def encode : Instr → Word
  | .cls => 0x00E0#16
  | .ret => 0x00EE#16
  | .jp nnn => 0x1#4 ++ nnn
  | .call nnn => 0x2#4 ++ nnn
  | .seByte x kk => 0x3#4 ++ x ++ kk
  | .sneByte x kk => 0x4#4 ++ x ++ kk
  | .seReg x y => 0x5#4 ++ x ++ y ++ 0x0#4
  | .ldByte x kk => 0x6#4 ++ x ++ kk
  | .addByte x kk => 0x7#4 ++ x ++ kk
  | .ldReg x y => 0x8#4 ++ x ++ y ++ 0x0#4
  | .orReg x y => 0x8#4 ++ x ++ y ++ 0x1#4
  | .andReg x y => 0x8#4 ++ x ++ y ++ 0x2#4
  | .xorReg x y => 0x8#4 ++ x ++ y ++ 0x3#4
  | .addReg x y => 0x8#4 ++ x ++ y ++ 0x4#4
  | .subReg x y => 0x8#4 ++ x ++ y ++ 0x5#4
  | .shrReg x y => 0x8#4 ++ x ++ y ++ 0x6#4
  | .subnReg x y => 0x8#4 ++ x ++ y ++ 0x7#4
  | .shlReg x y => 0x8#4 ++ x ++ y ++ 0xE#4
  | .sneReg x y => 0x9#4 ++ x ++ y ++ 0x0#4
  | .ldI nnn => 0xA#4 ++ nnn
  | .jpV0 nnn => 0xB#4 ++ nnn
  | .rnd x kk => 0xC#4 ++ x ++ kk
  | .drw x y n => 0xD#4 ++ x ++ y ++ n
  | .skp x => 0xE#4 ++ x ++ 0x9E#8
  | .sknp x => 0xE#4 ++ x ++ 0xA1#8
  | .ldVxDt x => 0xF#4 ++ x ++ 0x07#8
  | .ldVxK x => 0xF#4 ++ x ++ 0x0A#8
  | .ldDtVx x => 0xF#4 ++ x ++ 0x15#8
  | .ldStVx x => 0xF#4 ++ x ++ 0x18#8
  | .addIVx x => 0xF#4 ++ x ++ 0x1E#8
  | .ldFVx x => 0xF#4 ++ x ++ 0x29#8
  | .ldBVx x => 0xF#4 ++ x ++ 0x33#8
  | .storeRegs x => 0xF#4 ++ x ++ 0x55#8
  | .loadRegs x => 0xF#4 ++ x ++ 0x65#8
  | .noop w => w

/-- The two bytes of an instruction in the order of their addresses (R62, R80). -/
def encodeBytes (i : Instr) : List Byte := [highByte (encode i), lowByte (encode i)]

end Sys2Proof
end

