-- ==== Sys2Proof/Config.lean ====
section
/-! DEFINITION. The implementation parameters of spec/00_scope.md R9 and R10, each a named constant, and the one
free value, the random draw of Cxkk. -/

namespace Sys2Proof

/-- MEM_SIZE (R9). -/
abbrev Config.memSize : Nat := 4096

/-- PROG_BASE: the reset pc and the load offset (R9). -/
abbrev Config.progBase : Nat := 0x200

/-- PROG_MAX = MEM_SIZE - 0x200 (R9). -/
abbrev Config.progMax : Nat := 3584

/-- FONT_SIZE (R9). -/
abbrev Config.fontSize : Nat := 80

/-- The bytes of one glyph, the factor of Fx29 (spec/43_index_memory.md R203). -/
abbrev Config.glyphBytes : Nat := 5

/-- NUM_V (R9). -/
abbrev Config.numV : Nat := 16

/-- STACK_DEPTH (R9). -/
abbrev Config.stackDepth : Nat := 16

/-- NUM_KEYS (R9). -/
abbrev Config.numKeys : Nat := 16

/-- SCREEN_W (R9). -/
abbrev Config.screenW : Nat := 64

/-- SCREEN_H: a parameter of R9, here its default 32. PRESUMED (the spec's default, from general knowledge); unsafe
where a claim rests on rows wrapping at 32. Log 4. -/
abbrev Config.screenH : Nat := 32

/-- SPRITE_W (R9). -/
abbrev Config.spriteW : Nat := 8

/-- TIMER_PERIOD_US (R9). -/
abbrev Config.timerPeriodUs : Nat := 16000

/-- The microseconds of one second, in the tick formula (spec/60_exceptions.md R275). -/
abbrev Config.usPerSecond : Nat := 1000000

/-- The sentinel Fx0A writes into Vx while it waits (spec/44_keys_timers.md R233). -/
abbrev Config.keySentinel : Byte := 0xFF#8

/-- IPS0 (R10): the spec states no value. DESIGN CHOICE 0 (paused); unsafe. Log 2. -/
def Config.ips0 : Int := 0

/-- ACC6_0 (R10): the spec states no value. DESIGN CHOICE false; unsafe. Log 2. -/
def Config.acc60 : Bool := false

/-- ACCE_0 (R10): the spec states no value. DESIGN CHOICE false; unsafe. Log 2. -/
def Config.accE0 : Bool := false

/-- FONT (R9, spec/10_state.md R40): the parameter's default table, glyph d at bytes 5d..5d+4. PRESUMED (the spec's
default, from general knowledge); unsafe where a claim rests on a glyph's bytes instead of on this name. Log 3. -/
def Config.font : List Byte :=
  [0xF0#8, 0x90#8, 0x90#8, 0x90#8, 0xF0#8] ++ [0x20#8, 0x60#8, 0x20#8, 0x20#8, 0x70#8] ++
  [0xF0#8, 0x10#8, 0xF0#8, 0x80#8, 0xF0#8] ++ [0xF0#8, 0x10#8, 0xF0#8, 0x10#8, 0xF0#8] ++
  [0x90#8, 0x90#8, 0xF0#8, 0x10#8, 0x10#8] ++ [0xF0#8, 0x80#8, 0xF0#8, 0x10#8, 0xF0#8] ++
  [0xF0#8, 0x80#8, 0xF0#8, 0x90#8, 0xF0#8] ++ [0xF0#8, 0x10#8, 0x20#8, 0x40#8, 0x40#8] ++
  [0xF0#8, 0x90#8, 0xF0#8, 0x90#8, 0xF0#8] ++ [0xF0#8, 0x90#8, 0xF0#8, 0x10#8, 0xF0#8] ++
  [0xF0#8, 0x90#8, 0xF0#8, 0x90#8, 0x90#8] ++ [0xE0#8, 0x90#8, 0xE0#8, 0x90#8, 0xE0#8] ++
  [0xF0#8, 0x80#8, 0x80#8, 0x80#8, 0xF0#8] ++ [0xE0#8, 0x90#8, 0x90#8, 0x90#8, 0xE0#8] ++
  [0xF0#8, 0x80#8, 0xF0#8, 0x80#8, 0x80#8] ++ [0xF0#8, 0x80#8, 0xF0#8, 0x80#8, 0xF0#8]

/-- The contents of memory at reset, and so of every unlisted address: FONT in the first 80 bytes, 0x00 above
(spec/10_state.md R44; 92_eei_decisions.md D16). Log 11. -/
def Config.resetByte (a : Nat) : Byte := Config.font.getD a 0x00#8

/-- RND (spec/00_scope.md R16, spec/42_alu.md R175): draw number k. A FREE VALUE: it has no body, so every claim
holds for every sequence of draws. Log 5. -/
opaque Config.rnd : Nat → Byte

end Sys2Proof
end

