-- ==== Sys2Proof/Machine/State.lean ====
section
/-! DEFINITION. The state of the machine as plain data (spec/10_state.md R21 and the output records and subscriber
list of spec/60_exceptions.md R282), the reasons a step could stop, and the state after power-on and reset (R44). -/

namespace Sys2Proof.Machine

/-- Memory: the cells that differ from the contents at reset, in rising order of address, each address once
(the canonical form is `Memory.wf`). An unlisted address reads as `Config.resetByte`. -/
abbrev Memory := List Host.Cell

/-- The framebuffer, one bit per pixel, indexed by row and then column; true is white (R35). -/
abbrev Frame := Vector (Vector Bool Config.screenW) Config.screenH

/-- The causes of spec/60_exceptions.md R261, by name; `Cause.code` gives the number CAUSE shows. DESIGN CHOICE: held
by name; safe. Log 18. -/
inductive Cause where
  /-- No fault recorded. -/
  | none
  /-- 00EE with an empty stack. -/
  | stackUnderflow
  /-- 2nnn with a full stack. -/
  | stackOverflow
  /-- A fetch with pc + 1 at or above MEM_SIZE. -/
  | fetchOob
  /-- A read of Dxyn or Fx65 at or above MEM_SIZE. -/
  | memReadOob
  /-- A write of Fx33 or Fx55 at or above MEM_SIZE. -/
  | memWriteOob
  /-- Ex9E, ExA1 or Fx0A (key-held) with a key index above 15. -/
  | keyIndex
  deriving DecidableEq, Repr

/-- The fault status registers FAULTED, CAUSE, FPC, FOP, INFO (R37). -/
structure FaultRegs where
  faulted : Bool
  cause   : Cause
  fpc     : Word
  fop     : Word
  info    : Int
  deriving DecidableEq, Repr

/-- The fault registers when no fault is recorded, their values at reset (R44). -/
def FaultRegs.clear : FaultRegs := ⟨false, .none, 0x0000#16, 0x0000#16, 0⟩

/-- The configuration registers IPS, accurate_8xy6 and accurate_8xyE (R36). -/
structure Cfg where
  ips  : Int
  acc6 : Bool
  accE : Bool
  deriving DecidableEq, Repr

/-- One draw event: the copy of the framebuffer at that moment and the subscribers it was delivered to, in
registration order (spec/60_exceptions.md R282). Log 9. -/
structure DrawEvent where
  frame : Frame
  sentTo : List Nat
  deriving DecidableEq, Repr

/-- The host operations of spec/60_exceptions.md R285 with their arguments. `dt` is a natural number, so a negative
delta is no admitted call (R275, D30). A subscriber is known by a number (log 9). -/
inductive HostCall where
  | execute (dt : Nat)
  | step
  | reset
  | load (image : List Byte)
  | writeKeypad (k : Word)
  | writeConfig (ips : Int) (acc6 accE : Bool)
  | readFb
  | readStatus
  | subscribe (cb : Nat)
  deriving DecidableEq, Repr

/-- The complete state: the record of R21, the draw-event records and subscriber list of R282, and two fields of the
model's own, `rndNo` (log 5) and `calls` (log 6). -/
structure State where
  /-- The 4096 bytes of memory (R60). -/
  mem : Memory
  /-- V0 to VF (R22). -/
  v : Vector Byte Config.numV
  /-- The program counter (R25). -/
  pc : Word
  /-- The address register I (R28). -/
  i : Word
  /-- The return stack (R30). -/
  stack : Vector Word Config.stackDepth
  /-- The stack pointer: the index of the topmost occupied entry, `none` for -1, empty (R30, R31). Log 8. -/
  sp : Option (Fin Config.stackDepth)
  /-- The delay timer DT (R32). -/
  dt : Byte
  /-- The sound timer ST (R32). -/
  st : Byte
  /-- KEYPAD, bit k for key k (R33). -/
  keypad : Word
  /-- WAITING (R34). -/
  waiting : Bool
  /-- The framebuffer (R35). -/
  fb : Frame
  /-- The configuration registers (R36). -/
  cfg : Cfg
  /-- The fault status registers (R37). -/
  fault : FaultRegs
  /-- ACC_I, microseconds since the last instruction (R38). -/
  accI : Nat
  /-- ACC_T, microseconds since the last timer tick (R38). -/
  accT : Nat
  /-- The draw-event counter (R39). -/
  draws : Nat
  /-- The draw events issued, oldest first: an output (R282). Log 9. -/
  events : List DrawEvent
  /-- The draw-event subscribers in registration order (R282, R301). Log 9. -/
  subscribers : List Nat
  /-- The model's own: how many RND draws have been taken (R16). Log 5. -/
  rndNo : Nat
  /-- The model's own: the host calls not yet served, oldest first (R285). Log 6. -/
  calls : List HostCall
  deriving DecidableEq, Repr

/-- Why a step stops with a fault. No instruction and no host call of R285 stops so: the faults of R261 are taken as
next states with the fault registers written (R262). -/
inductive Fault where
  /-- The host-side pixel accessor was given an index outside the screen (spec/40_display.md R110, U6). Raised by
  `State.readPixel` alone, which no step calls; safe. -/
  | pixelIndex (x y : Nat)
  deriving DecidableEq, Repr

/-- Why a step has no meaning. -/
inductive Refusal where
  /-- An instruction the model gives no meaning, by its mnemonic. Raised by no arm of `exec`: every instruction is
  modelled; safe. -/
  | notModelled (mnemonic : String)
  deriving DecidableEq, Repr

/-- The opaque-black screen (R44). -/
def Frame.black : Frame := Vector.replicate Config.screenH (Vector.replicate Config.screenW false)

/-- The state at power-on for given values of the parameters IPS0, ACC6_0 and ACCE_0 (R10, R44,
spec/70_reset_and_hazards.md R302). -/
def State.powerOn (ips0 : Int) (acc60 accE0 : Bool) : State where
  mem := []
  v := Vector.replicate Config.numV 0x00#8
  pc := BitVec.ofNat 16 Config.progBase
  i := 0x0000#16
  stack := Vector.replicate Config.stackDepth 0x0000#16
  sp := none
  dt := 0x00#8
  st := 0x00#8
  keypad := 0x0000#16
  waiting := false
  fb := Frame.black
  cfg := ⟨ips0, acc60, accE0⟩
  fault := FaultRegs.clear
  accI := 0
  accT := 0
  draws := 0
  events := []
  subscribers := []
  rndNo := 0
  calls := []

/-- The machine right after power-on and reset (R44, R302), with the parameter values of `Config` (log 2). -/
def State.reset : State := State.powerOn Config.ips0 Config.acc60 Config.accE0

end Sys2Proof.Machine
end

