-- ==== Sys2Proof/Machine/Ops.lean ====
section
/-! DEFINITION. The named operations over memory, registers, pc, return stack and framebuffer, and taking a fault. -/

namespace Sys2Proof.Machine

/-! ## Memory (spec/20_memory.md) -/

/-- The byte at an address: the listed cell, or the contents at reset (R60, R68). -/
def Memory.read : Memory → Nat → Byte
  | [], a => Config.resetByte a
  | c :: m, a => if c.1 = a then c.2 else Memory.read m a

/-- Memory with no cell listed for an address. -/
def Memory.erase (m : Memory) (a : Nat) : Memory := m.filter fun c => !decide (c.1 = a)

/-- Memory with a cell listed at its place in the rising order. -/
def Memory.insert : Memory → Nat → Byte → Memory
  | [], a, b => [(a, b)]
  | c :: m, a, b => if a < c.1 then (a, b) :: c :: m else c :: Memory.insert m a b

/-- The store of one byte (R68). A value equal to what an unlisted address reads as is not listed. -/
def Memory.write (m : Memory) (a : Nat) (b : Byte) : Memory :=
  if b = Config.resetByte a then m.erase a else (m.erase a).insert a b

/-- Bytes stored at consecutive addresses in ascending order (R63). -/
def Memory.writeBytes : Memory → Nat → List Byte → Memory
  | m, _, [] => m
  | m, a, b :: bs => Memory.writeBytes (m.write a b) (a + 1) bs

/-- The `k` bytes from an address on, in ascending order (R63). -/
def Memory.readBytes (m : Memory) : Nat → Nat → List Byte
  | _, 0 => []
  | a, k + 1 => m.read a :: Memory.readBytes m (a + 1) k

/-- The canonical form: addresses strictly rising and below MEM_SIZE, and no cell equal to what an unlisted address
reads as. -/
abbrev Memory.wf (m : Memory) : Prop :=
  m.Pairwise (fun c d => c.1 < d.1) ∧ ∀ c ∈ m, c.1 < Config.memSize ∧ c.2 ≠ Config.resetByte c.1

/-- The bounds check of R64 for `k` bytes from an address on, all of them before any access (R65). No byte is
always in bounds. -/
def inBounds (a k : Nat) : Bool := decide (k = 0) || decide (a + k ≤ Config.memSize)

/-- INFO of a memory fault: the lowest address at or above MEM_SIZE among those from `a` on (R264). -/
def oobInfo (a : Nat) : Int := Int.ofNat (max a Config.memSize)

/-- Store bytes from an address on (R63). -/
def State.storeBytes (s : State) (a : Nat) (bs : List Byte) : State :=
  { s with mem := s.mem.writeBytes a bs }

/-! ## General registers (spec/10_state.md R22) -/

/-- V[x]. -/
def State.reg (s : State) (x : Nibble) : Byte := s.v[x.toNat]'x.isLt

/-- V[x] <- b. -/
def State.setReg (s : State) (x : Nibble) (b : Byte) : State :=
  { s with v := s.v.set x.toNat b x.isLt }

/-- V[k], V[k+1], … <- bytes, in ascending order, as far as there are registers. -/
def State.setRegs : State → Nat → List Byte → State
  | s, _, [] => s
  | s, k, b :: bs => (s.setReg (BitVec.ofNat 4 k) b).setRegs (k + 1) bs

/-- V[0] to V[x], in ascending order. -/
def State.regsTo (s : State) (x : Nibble) : List Byte :=
  (List.range (x.toNat + 1)).map fun k => s.reg (BitVec.ofNat 4 k)

/-! ## The program counter (spec/00_scope.md R17, spec/30_encoding.md R82) -/

/-- The post-increment pc: a + 2, or a while WAITING (R17). -/
def State.postPc (s : State) : Word := if s.waiting then s.pc else s.pc + 2#16

/-- The pre-advance of R82. -/
def State.preAdvance (s : State) : State := { s with pc := s.postPc }

/-- pc <- target. -/
def State.jump (s : State) (target : Word) : State := { s with pc := target }

/-- A skip adds 2 to pc when its test holds (spec/41_control.md R130). -/
def State.skipIf (s : State) (test : Bool) : State := if test then s.jump (s.pc + 2#16) else s

/-! ## The return stack (R30, R31, spec/41_control.md R135) -/

/-- SP as the signed number of R30: -1 is empty. -/
def State.spInt (s : State) : Int :=
  match s.sp with
  | none => -1
  | some k => Int.ofNat k.val

/-- SP as the signed 8-bit register of R30. -/
def State.spReg (s : State) : Byte := BitVec.ofInt 8 s.spInt

/-- The index above the top of the stack, where it has one: SP + 1 for SP in -1..14 (R135). -/
def nextSlot : Option (Fin Config.stackDepth) → Option (Fin Config.stackDepth)
  | none => some ⟨0, by decide⟩
  | some k => if h : k.val + 1 < Config.stackDepth then some ⟨k.val + 1, h⟩ else none

/-- SP - 1 for an occupied entry: the entry below, or empty (R131). -/
def slotBelow (k : Fin Config.stackDepth) : Option (Fin Config.stackDepth) :=
  if k.val = 0 then none else some ⟨k.val - 1, by omega⟩

/-- The push of R134: SP is raised first, then the entry written. `none` when the stack is full. -/
def State.push (s : State) (ret : Word) : Option State :=
  match nextSlot s.sp with
  | none => none
  | some k => some { s with sp := some k, stack := s.stack.set k.val ret k.isLt }

/-- The pop of R131: the top entry and the state without it, which keeps the entry's value. `none` when the stack is
empty. -/
def State.pop (s : State) : Option (Word × State) :=
  match s.sp with
  | none => none
  | some k => some (s.stack[k.val]'k.isLt, { s with sp := slotBelow k })

/-! ## Taking a fault (spec/60_exceptions.md R262, R263) -/

/-- The number CAUSE shows (R261). -/
def Cause.code : Cause → Byte
  | .none => 0#8
  | .stackUnderflow => 1#8
  | .stackOverflow => 2#8
  | .fetchOob => 3#8
  | .memReadOob => 4#8
  | .memWriteOob => 5#8
  | .keyIndex => 6#8

/-- Fault entry (R262): FAULTED, CAUSE, FPC = a, FOP and INFO are written and nothing else (R263). `s` is the state
the step began in, so its pc is a. There is no return from a fault (R266). -/
def State.takeFault (s : State) (cause : Cause) (op : Word) (info : Int) : State :=
  { s with fault := ⟨true, cause, s.pc, op, info⟩ }

/-! ## The framebuffer controller (spec/40_display.md R110-R112) -/

/-- The pixel bit fb[row][col]. -/
def Frame.pixel (fb : Frame) (row : Fin Config.screenH) (col : Fin Config.screenW) : Bool :=
  (fb[row.val]'row.isLt)[col.val]'col.isLt

/-- The framebuffer with fb[row][col] changed to `fb[row][col] xor 1`. -/
def Frame.flip (fb : Frame) (row : Fin Config.screenH) (col : Fin Config.screenW) : Frame :=
  fb.set row.val ((fb[row.val]'row.isLt).set col.val (!fb.pixel row col) col.isLt) row.isLt

/-- (Vy + r) mod SCREEN_H (R113). -/
def wrapRow (k : Nat) : Fin Config.screenH := ⟨k % Config.screenH, Nat.mod_lt _ (by decide)⟩

/-- (Vx + c) mod SCREEN_W (R113). -/
def wrapCol (k : Nat) : Fin Config.screenW := ⟨k % Config.screenW, Nat.mod_lt _ (by decide)⟩

/-- The framebuffer and the collision flag of a draw in progress. -/
structure Canvas where
  fb : Frame
  hit : Bool
  deriving DecidableEq, Repr

/-- One set sprite bit: `hit` records that a set pixel is cleared, and the pixel is XORed with 1 (R112). -/
def Canvas.plot (cv : Canvas) (row : Fin Config.screenH) (col : Fin Config.screenW) : Canvas :=
  ⟨cv.fb.flip row col, cv.hit || cv.fb.pixel row col⟩

/-- Column c of a sprite row takes bit 7 - c (R112). -/
def spriteBit (row : Byte) (c : Nat) : Bool := row.getLsbD (Config.spriteW - 1 - c)

/-- The columns from `c` on, `k` of them, of one sprite row at screen column `xs` and screen row `py`. -/
def Canvas.drawCols (cv : Canvas) (xs : Nat) (py : Fin Config.screenH) (row : Byte) : Nat → Nat → Canvas
  | _, 0 => cv
  | c, k + 1 =>
    Canvas.drawCols (if spriteBit row c then cv.plot py (wrapCol (xs + c)) else cv) xs py row (c + 1) k

/-- The sprite rows in ascending order, the first at (xs, ys), each wrapped on its own (R112, R113). -/
def Canvas.drawRows (cv : Canvas) (xs : Nat) : Nat → List Byte → Canvas
  | _, [] => cv
  | ys, row :: rows => Canvas.drawRows (cv.drawCols xs (wrapRow ys) row 0 Config.spriteW) xs (ys + 1) rows

/-- The draw event of spec/60_exceptions.md R282: `draws` grows by 1 and the framebuffer is delivered to every
subscriber in registration order. -/
def State.notifyDraw (s : State) : State :=
  { s with draws := s.draws + 1, events := s.events ++ [⟨s.fb, s.subscribers⟩] }

/-- The RGBA view of one pixel: white or opaque black (R35). -/
structure Rgba where
  r : Byte
  g : Byte
  b : Byte
  a : Byte
  deriving DecidableEq, Repr

/-- White or opaque black (R19, R35). -/
def rgbaOfBit (bit : Bool) : Rgba :=
  if bit then ⟨255#8, 255#8, 255#8, 255#8⟩ else ⟨0#8, 0#8, 0#8, 255#8⟩

/-- The RGBA array, row-major: pixel (col, row) at index row * SCREEN_W + col (R35). -/
def Frame.rgba (fb : Frame) : List Rgba := fb.toList.flatMap fun row => row.toList.map rgbaOfBit

end Sys2Proof.Machine
end

