-- ==== Sys2Proof/Machine/Operands.lean ====
section
/-! DEFINITION. The operand forms: what an instruction reads before it writes anything (spec/10_state.md R42). -/

namespace Sys2Proof.Machine

/-- The effective address I + k, an unbounded integer (spec/43_index_memory.md R200). -/
def State.effAddr (s : State) (k : Nat) : Nat := s.i.toNat + k

/-- The source register of 8xy6: Vy when accurate_8xy6, else Vx (spec/42_alu.md R169, R174). -/
def State.shrSource (s : State) (x y : Nibble) : Byte := if s.cfg.acc6 then s.reg y else s.reg x

/-- The source register of 8xyE: Vy when accurate_8xyE, else Vx (R171, R174). -/
def State.shlSource (s : State) (x y : Nibble) : Byte := if s.cfg.accE then s.reg y else s.reg x

/-- The target of Bnnn: nnn + V0, unreduced (spec/41_control.md R140, R141). -/
def State.offsetTarget (s : State) (nnn : Addr12) : Word := zext16 nnn + zext16 (s.reg 0x0#4)

/-- Whether a key index names a key 0x0 to 0xF (spec/44_keys_timers.md R230). -/
def isKey (k : Byte) : Bool := decide (k.toNat < Config.numKeys)

/-- KEYPAD[k] for the key index k (R33). -/
def State.keyDown (s : State) (k : Byte) : Bool := s.keypad.getLsbD k.toNat

/-- The scan of Fx0A over the keys from `k` on, `count` of them, ascending: each pressed key overwrites the result, so
the highest one stays (R234, R235). -/
def scanKeys (keypad : Word) (found : Byte) : Nat → Nat → Byte
  | _, 0 => found
  | k, count + 1 =>
    scanKeys keypad (if keypad.getLsbD k then BitVec.ofNat 8 k else found) (k + 1) count

/-- The glyph address Vx * 5, not masked (spec/43_index_memory.md R203). -/
def glyphAddr (digit : Byte) : Word := zext16 digit * BitVec.ofNat 16 Config.glyphBytes

/-- The hundreds, tens and ones digits (R204). -/
def bcdDigits (b : Byte) : List Byte :=
  [BitVec.ofNat 8 (b.toNat / 100), BitVec.ofNat 8 (b.toNat / 10 % 10), BitVec.ofNat 8 (b.toNat % 10)]

/-- The next draw of RND: a fresh free value for each execution of Cxkk (spec/00_scope.md R16). Log 5. -/
def State.drawRnd (s : State) : Byte × State := (Config.rnd s.rndNo, { s with rndNo := s.rndNo + 1 })

end Sys2Proof.Machine
end

