-- ==== Sys2Proof/Machine/Flags.lean ====
section
/-! DEFINITION. The flag computations and the one way a flag is written: into VF, last (spec/10_state.md R41, R42). -/

namespace Sys2Proof.Machine

/-- VF, register 0xF. -/
def regF : Nibble := 0xF#4

/-- A flag as the byte VF receives. -/
def flagByte (b : Bool) : Byte := if b then 1#8 else 0#8

/-- Carry of 8xy4: the unwrapped sum is above 255 (spec/42_alu.md R167). -/
def carryOut (a b : Byte) : Bool := decide (a.toNat + b.toNat > 255)

/-- The flag of 8xy5 and 8xy7: the minuend is strictly greater (R168, R170). -/
def strictlyGreater (a b : Byte) : Bool := decide (a.toNat > b.toNat)

/-- The bit 8xy6 shifts out (R169). -/
def lowBitOut (src : Byte) : Bool := src.getLsbD 0

/-- The bit 8xyE shifts out (R171). -/
def highBitOut (src : Byte) : Bool := src.getLsbD 7

/-- VF <- flag. -/
def State.setFlag (s : State) (flag : Bool) : State := s.setReg regF (flagByte flag)

/-- The result into Vx, then the flag into VF, so that VF holds the flag when x = 0xF (R42). -/
def State.setResult (s : State) (x : Nibble) (result : Byte) (flag : Bool) : State :=
  (s.setReg x result).setFlag flag

end Sys2Proof.Machine
end

