-- ==== Sys2Proof/Machine/Alu.lean ====
section
/-! DEFINITION. Register loads, the ALU and the random byte (spec/42_alu.md). No instruction here faults. -/

namespace Sys2Proof.Machine

/-- 6xkk (R161). -/
def execLdByte (x : Nibble) (kk : Byte) (s : State) : Host.Outcome State Fault Refusal :=
  .next (s.preAdvance.setReg x kk)

/-- 7xkk (R162): wraps at 256, no flag. -/
def execAddByte (x : Nibble) (kk : Byte) (s : State) : Host.Outcome State Fault Refusal :=
  .next (s.preAdvance.setReg x (s.reg x + kk))

/-- 8xy0 (R163). -/
def execLdReg (x y : Nibble) (s : State) : Host.Outcome State Fault Refusal :=
  .next (s.preAdvance.setReg x (s.reg y))

/-- 8xy1 (R164): VF is not written. -/
def execOrReg (x y : Nibble) (s : State) : Host.Outcome State Fault Refusal :=
  .next (s.preAdvance.setReg x (s.reg x ||| s.reg y))

/-- 8xy2 (R165): VF is not written. -/
def execAndReg (x y : Nibble) (s : State) : Host.Outcome State Fault Refusal :=
  .next (s.preAdvance.setReg x (s.reg x &&& s.reg y))

/-- 8xy3 (R166): VF is not written. -/
def execXorReg (x y : Nibble) (s : State) : Host.Outcome State Fault Refusal :=
  .next (s.preAdvance.setReg x (s.reg x ^^^ s.reg y))

/-- 8xy4 (R167): VF is the carry. -/
def execAddReg (x y : Nibble) (s : State) : Host.Outcome State Fault Refusal :=
  .next (s.preAdvance.setResult x (s.reg x + s.reg y) (carryOut (s.reg x) (s.reg y)))

/-- 8xy5 (R168): VF is Vx > Vy, strictly. -/
def execSubReg (x y : Nibble) (s : State) : Host.Outcome State Fault Refusal :=
  .next (s.preAdvance.setResult x (s.reg x - s.reg y) (strictlyGreater (s.reg x) (s.reg y)))

/-- 8xy6 (R169): the source is Vy or Vx by accurate_8xy6. -/
def execShrReg (x y : Nibble) (s : State) : Host.Outcome State Fault Refusal :=
  .next (s.preAdvance.setResult x (s.shrSource x y >>> 1) (lowBitOut (s.shrSource x y)))

/-- 8xy7 (R170): VF is Vy > Vx, strictly; no toggle applies. -/
def execSubnReg (x y : Nibble) (s : State) : Host.Outcome State Fault Refusal :=
  .next (s.preAdvance.setResult x (s.reg y - s.reg x) (strictlyGreater (s.reg y) (s.reg x)))

/-- 8xyE (R171): the source is Vy or Vx by accurate_8xyE. -/
def execShlReg (x y : Nibble) (s : State) : Host.Outcome State Fault Refusal :=
  .next (s.preAdvance.setResult x (s.shlSource x y <<< 1) (highBitOut (s.shlSource x y)))

/-- Cxkk (R175): kk and a fresh free value. -/
def execRnd (x : Nibble) (kk : Byte) (s : State) : Host.Outcome State Fault Refusal :=
  let (r, t) := s.preAdvance.drawRnd
  .next (t.setReg x (kk &&& r))

end Sys2Proof.Machine
end

