-- ==== Sys2Proof/Machine/Control.lean ====
section
/-! DEFINITION. Control transfer: subroutines, jumps and skips (spec/41_control.md), and the no-op
(spec/30_encoding.md R96). No target is checked (R130). -/

namespace Sys2Proof.Machine

/-- 00EE (R131): pop into pc, or STACK_UNDERFLOW. -/
def execRet (s : State) : Host.Outcome State Fault Refusal :=
  match s.preAdvance.pop with
  | some (ret, t) => .next (t.jump ret)
  | none => .next (s.takeFault .stackUnderflow (encode .ret) s.spInt)

/-- 1nnn (R133). -/
def execJp (nnn : Addr12) (s : State) : Host.Outcome State Fault Refusal :=
  .next (s.jump (zext16 nnn))

/-- 2nnn (R134): push the post-increment pc, or STACK_OVERFLOW. -/
def execCall (nnn : Addr12) (s : State) : Host.Outcome State Fault Refusal :=
  match s.preAdvance.push s.postPc with
  | some t => .next (t.jump (zext16 nnn))
  | none => .next (s.takeFault .stackOverflow (encode (.call nnn)) s.spInt)

/-- 3xkk (R136). -/
def execSeByte (x : Nibble) (kk : Byte) (s : State) : Host.Outcome State Fault Refusal :=
  .next (s.preAdvance.skipIf (decide (s.reg x = kk)))

/-- 4xkk (R137). -/
def execSneByte (x : Nibble) (kk : Byte) (s : State) : Host.Outcome State Fault Refusal :=
  .next (s.preAdvance.skipIf (decide (s.reg x ≠ kk)))

/-- 5xy0 (R138). -/
def execSeReg (x y : Nibble) (s : State) : Host.Outcome State Fault Refusal :=
  .next (s.preAdvance.skipIf (decide (s.reg x = s.reg y)))

/-- 9xy0 (R139). -/
def execSneReg (x y : Nibble) (s : State) : Host.Outcome State Fault Refusal :=
  .next (s.preAdvance.skipIf (decide (s.reg x ≠ s.reg y)))

/-- Bnnn (R140): the register is always V0; the target is stored unreduced (R141). -/
def execJpV0 (nnn : Addr12) (s : State) : Host.Outcome State Fault Refusal :=
  .next (s.jump (s.offsetTarget nnn))

/-- Any other word (R96): nothing beyond the pre-advance. -/
def execNoop (_w : Word) (s : State) : Host.Outcome State Fault Refusal :=
  .next s.preAdvance

end Sys2Proof.Machine
end

