-- ==== Sys2Proof/Machine/Display.lean ====
section
/-! DEFINITION. The display instructions 00E0 and Dxyn (spec/40_display.md). Each meaning starts from the state the
step began in, with pc = a, and makes the pre-advance itself. -/

namespace Sys2Proof.Machine

/-- 00E0 (R111): every pixel to opaque black, and one draw event even when the screen is black already. -/
def execCls (s : State) : Host.Outcome State Fault Refusal :=
  .next { s.preAdvance with fb := Frame.black }.notifyDraw

/-- Dxyn (R112-R114): all addresses are checked first; Vx and Vy are read before VF is written; I is unchanged. -/
def execDrw (x y n : Nibble) (s : State) : Host.Outcome State Fault Refusal :=
  if inBounds (s.effAddr 0) n.toNat then
    let rows := s.mem.readBytes (s.effAddr 0) n.toNat
    let cv := Canvas.drawRows ⟨s.fb, false⟩ (s.reg x).toNat (s.reg y).toNat rows
    .next (({ s.preAdvance with fb := cv.fb }.setFlag cv.hit).notifyDraw)
  else
    .next (s.takeFault .memReadOob (encode (.drw x y n)) (oobInfo (s.effAddr 0)))

end Sys2Proof.Machine
end

