-- ==== Sys2Proof/Machine/IndexMemory.lean ====
section
/-! DEFINITION. The address register, and loads and stores through it (spec/43_index_memory.md). I is never modified
by an access (R207). -/

namespace Sys2Proof.Machine

/-- Annn (R201). -/
def execLdI (nnn : Addr12) (s : State) : Host.Outcome State Fault Refusal :=
  .next { s.preAdvance with i := zext16 nnn }

/-- Fx1E (R202): wraps at 16 bits, no flag, no fault. -/
def execAddIVx (x : Nibble) (s : State) : Host.Outcome State Fault Refusal :=
  .next { s.preAdvance with i := s.i + zext16 (s.reg x) }

/-- Fx29 (R203): Vx is not masked. -/
def execLdFVx (x : Nibble) (s : State) : Host.Outcome State Fault Refusal :=
  .next { s.preAdvance with i := glyphAddr (s.reg x) }

/-- Fx33 (R204): hundreds, tens and ones at I, I+1, I+2, or MEM_WRITE_OOB with nothing written. -/
def execLdBVx (x : Nibble) (s : State) : Host.Outcome State Fault Refusal :=
  if inBounds (s.effAddr 0) 3 then
    .next (s.preAdvance.storeBytes (s.effAddr 0) (bcdDigits (s.reg x)))
  else
    .next (s.takeFault .memWriteOob (encode (.ldBVx x)) (oobInfo (s.effAddr 0)))

/-- Fx55 (R205): V0 to Vx from I on, ascending, or MEM_WRITE_OOB with nothing written. -/
def execStoreRegs (x : Nibble) (s : State) : Host.Outcome State Fault Refusal :=
  if inBounds (s.effAddr 0) (x.toNat + 1) then
    .next (s.preAdvance.storeBytes (s.effAddr 0) (s.regsTo x))
  else
    .next (s.takeFault .memWriteOob (encode (.storeRegs x)) (oobInfo (s.effAddr 0)))

/-- Fx65 (R206): V0 to Vx from memory at I on, ascending, or MEM_READ_OOB with no register written. -/
def execLoadRegs (x : Nibble) (s : State) : Host.Outcome State Fault Refusal :=
  if inBounds (s.effAddr 0) (x.toNat + 1) then
    .next (s.preAdvance.setRegs 0 (s.mem.readBytes (s.effAddr 0) (x.toNat + 1)))
  else
    .next (s.takeFault .memReadOob (encode (.loadRegs x)) (oobInfo (s.effAddr 0)))

end Sys2Proof.Machine
end

