-- ==== Sys2Proof/Machine/KeysTimers.lean ====
section
/-! DEFINITION. The keypad and timer instructions (spec/44_keys_timers.md). -/

namespace Sys2Proof.Machine

/-- Ex9E (R230): skip when the key Vx is pressed, or KEY_INDEX. -/
def execSkp (x : Nibble) (s : State) : Host.Outcome State Fault Refusal :=
  if isKey (s.reg x) then .next (s.preAdvance.skipIf (s.keyDown (s.reg x)))
  else .next (s.takeFault .keyIndex (encode (.skp x)) (Int.ofNat (s.reg x).toNat))

/-- ExA1 (R231): skip when the key Vx is not pressed, or KEY_INDEX. -/
def execSknp (x : Nibble) (s : State) : Host.Outcome State Fault Refusal :=
  if isKey (s.reg x) then .next (s.preAdvance.skipIf (!s.keyDown (s.reg x)))
  else .next (s.takeFault .keyIndex (encode (.sknp x)) (Int.ofNat (s.reg x).toNat))

/-- Fx07 (R232). -/
def execLdVxDt (x : Nibble) (s : State) : Host.Outcome State Fault Refusal :=
  .next (s.preAdvance.setReg x s.dt)

/-- Fx0A (R233-R236): idle clears KEYPAD, sets the sentinel and WAITING and rewinds pc; waiting records the highest
pressed key; key-held completes when that key is released, or KEY_INDEX. -/
def execLdVxK (x : Nibble) (s : State) : Host.Outcome State Fault Refusal :=
  if !s.waiting then
    let t := { s.preAdvance with keypad := 0#16, waiting := true }
    .next ((t.setReg x Config.keySentinel).jump (t.pc - 2#16))
  else if s.reg x = Config.keySentinel then
    .next (s.preAdvance.setReg x (scanKeys s.keypad (s.reg x) 0 Config.numKeys))
  else if isKey (s.reg x) then
    if s.keyDown (s.reg x) then .next s.preAdvance
    else
      let t := { s.preAdvance with waiting := false }
      .next (t.jump (t.pc + 2#16))
  else .next (s.takeFault .keyIndex (encode (.ldVxK x)) (Int.ofNat (s.reg x).toNat))

/-- Fx15 (R237). -/
def execLdDtVx (x : Nibble) (s : State) : Host.Outcome State Fault Refusal :=
  .next { s.preAdvance with dt := s.reg x }

/-- Fx18 (R238). -/
def execLdStVx (x : Nibble) (s : State) : Host.Outcome State Fault Refusal :=
  .next { s.preAdvance with st := s.reg x }

end Sys2Proof.Machine
end

