-- ==== Sys2Proof/Machine/Engine.lean ====
section
/-! DEFINITION. The instruction engine: the fetch and the operation STEP (spec/30_encoding.md R81). -/

namespace Sys2Proof.Machine

/-- The fetch's own check: both bytes pc and pc + 1 are below MEM_SIZE, compared unbounded (R81). -/
def State.fetchOk (s : State) : Bool := decide (s.pc.toNat + 1 < Config.memSize)

/-- The opcode at pc, big-endian (R81, spec/20_memory.md R62). -/
def State.fetchWord (s : State) : Word := wordOfBytes (s.mem.read s.pc.toNat) (s.mem.read (s.pc.toNat + 1))

/-- STEP (R81): nothing while FAULTED (spec/60_exceptions.md R267), FETCH_OOB with no opcode, or the instruction at
pc. -/
def engineStep (s : State) : Host.Outcome State Fault Refusal :=
  if s.fault.faulted then .next s
  else if s.fetchOk then exec (decodeWord s.fetchWord) s
  else .next (s.takeFault .fetchOob 0x0000#16 (Int.ofNat s.pc.toNat))

end Sys2Proof.Machine
end

