-- ==== Sys2Proof/Machine/Scheduler.lean ====
section
/-! DEFINITION. The execution scheduler and the timer countdown (spec/60_exceptions.md R274-R280). -/

namespace Sys2Proof.Machine

/-- One tick of a timer: v to v - 1, and 0 stays 0 (R276). -/
def countDown (t : Byte) : Byte := if t = 0#8 then t else t - 1#8

/-- Both accumulators advance by dt (R275). -/
def State.accumulate (s : State) (dt : Nat) : State := { s with accI := s.accI + dt, accT := s.accT + dt }

/-- The timer tick, if due: DT and ST count down, independently, and ACC_T is cleared (R275, R276). -/
def State.timerTick (s : State) : State :=
  if s.accT ≥ Config.timerPeriodUs then { s with dt := countDown s.dt, st := countDown s.st, accT := 0 } else s

/-- The tick duration for IPS > 0: floor(1000000 / IPS) microseconds (R275, R278). -/
def tickUs (ips : Int) : Nat := Config.usPerSecond / ips.toNat

/-- A step is due: not paused, and ACC_I has reached the tick duration (R275, R277). -/
def State.stepDue (s : State) : Bool := decide (s.cfg.ips > 0) && decide (s.accI ≥ tickUs s.cfg.ips)

/-- ACC_I is cleared after a step that did not fault, and kept after one that did (R275, D17). -/
def State.settleStep (s : State) : State := if s.fault.faulted then s else { s with accI := 0 }

/-- EXECUTE(dt) (R275), in the order of R280: accumulate, timer tick, pause test, at most one step. -/
def execute (dt : Nat) (s : State) : Host.Outcome State Fault Refusal :=
  let t := (s.accumulate dt).timerTick
  if t.stepDue then
    match engineStep t with
    | .next u => .next u.settleStep
    | .fault r => .fault r
    | .refused r => .refused r
  else .next t

end Sys2Proof.Machine
end

