-- ==== Sys2Proof/Machine/Ports.lean ====
section
/-! DEFINITION. The host operations (spec/60_exceptions.md R285): reset and program load
(spec/70_reset_and_hazards.md), keypad and configuration writes, the reads, and what each call returns. -/

namespace Sys2Proof.Machine

/-- RESET (R300): the machine state takes its reset values; what R301 names stays: the configuration, the
accumulators, the draw counter and records, the subscribers, the random source, and the host's further calls. -/
def State.hostReset (s : State) : State :=
  { State.powerOn s.cfg.ips s.cfg.acc6 s.cfg.accE with
    accI := s.accI, accT := s.accT, draws := s.draws, events := s.events, subscribers := s.subscribers,
    rndNo := s.rndNo, calls := s.calls }

/-- Whether an image fits the load port (R310, R311). -/
def imageFits (image : List Byte) : Bool := decide (image.length ≤ Config.progMax)

/-- LOAD (R310): the image is copied from PROG_BASE on and nothing else changes (R304); a too-large image changes
nothing (R311). -/
def State.hostLoad (s : State) (image : List Byte) : State :=
  if imageFits image then s.storeBytes Config.progBase image else s

/-- WRITE_KEYPAD: KEYPAD is written whole (spec/60_exceptions.md R281). -/
def State.hostKeypad (s : State) (k : Word) : State := { s with keypad := k }

/-- WRITE_CONFIG (R287). -/
def State.hostConfig (s : State) (ips : Int) (acc6 accE : Bool) : State := { s with cfg := ⟨ips, acc6, accE⟩ }

/-- SUBSCRIBE: the subscriber comes last in registration order (R282). -/
def State.hostSubscribe (s : State) (cb : Nat) : State := { s with subscribers := s.subscribers ++ [cb] }

/-- The sound output: ST > 0 (R283). -/
def State.soundActive (s : State) : Bool := decide (s.st.toNat > 0)

/-- One host call, served whole (R285). -/
def serve (c : HostCall) (s : State) : Host.Outcome State Fault Refusal :=
  match c with
  | .execute dt => execute dt s
  | .step => engineStep s
  | .reset => .next s.hostReset
  | .load image => .next (s.hostLoad image)
  | .writeKeypad k => .next (s.hostKeypad k)
  | .writeConfig ips acc6 accE => .next (s.hostConfig ips acc6 accE)
  | .readFb => .next s
  | .readStatus => .next s
  | .subscribe cb => .next (s.hostSubscribe cb)

/-- The oldest host call not yet served; with none waiting, the host calls STEP. DESIGN CHOICE; safe. Log 6. -/
def serveNext (s : State) : Host.Outcome State Fault Refusal :=
  match s.calls with
  | [] => engineStep s
  | c :: rest => serve c { s with calls := rest }

/-- What a host call returns (the last column of R285). -/
inductive Reply where
  | none
  | ok
  | fileTooBig
  | fault (cause : Byte) (fpc fop : Word) (info : Int)
  | frame (pixels : List Rgba)
  | status (faulted : Bool) (cause : Byte) (fpc fop : Word) (info : Int) (soundActive : Bool)
  deriving DecidableEq, Repr

/-- The result of STEP read off the state it leaves: Fault(CAUSE, FPC, FOP, INFO) when FAULTED, else Ok
(R262, R267). -/
def State.stepReply (s : State) : Reply :=
  if s.fault.faulted then .fault s.fault.cause.code s.fault.fpc s.fault.fop s.fault.info else .ok

/-- What a call returns when it is made in a state (R285). Log 10. -/
def reply (c : HostCall) (s : State) : Reply :=
  match c with
  | .step =>
    match engineStep s with
    | .next t => t.stepReply
    | _ => .none
  | .load image => if imageFits image then .ok else .fileTooBig
  | .readFb => .frame s.fb.rgba
  | .readStatus =>
    .status s.fault.faulted s.fault.cause.code s.fault.fpc s.fault.fop s.fault.info s.soundActive
  | .execute _ => .none
  | .reset => .none
  | .writeKeypad _ => .none
  | .writeConfig _ _ _ => .none
  | .subscribe _ => .none

/-- The framebuffer component's host-side `pixel(x, y)`: the bit at column x and row y, or a programming error
outside the screen (spec/40_display.md R110, U6). No step calls it. -/
def State.readPixel (s : State) (x y : Nat) : Host.Outcome Bool Fault Refusal :=
  if hy : y < Config.screenH then
    if hx : x < Config.screenW then .next (s.fb.pixel ⟨y, hy⟩ ⟨x, hx⟩) else .fault (.pixelIndex x y)
  else .fault (.pixelIndex x y)

/-- The place a test instruction is put: pc where both bytes can be fetched, else PROG_BASE. -/
def State.fetchAddr (s : State) : Nat := if s.fetchOk then s.pc.toNat else Config.progBase

/-- The state with an opcode stored where the next STEP fetches it, that STEP being the next thing that runs: no
recorded fault, no host call waiting. Log 17. -/
def State.placeWord (s : State) (op : Word) : State :=
  { s with
    mem := s.mem.writeBytes s.fetchAddr [highByte op, lowByte op]
    pc := BitVec.ofNat 16 s.fetchAddr
    fault := FaultRegs.clear
    calls := [] }

end Sys2Proof.Machine
end

