-- ==== Sys2Proof/Machine/Step.lean ====
section
/-! DEFINITION. One step of the machine, and the placing of one instruction for it. -/

namespace Sys2Proof.Machine

/-- One step: the oldest host call not yet served, or STEP when none waits (spec/60_exceptions.md R285). -/
def step (s : State) : Host.Outcome State Fault Refusal := serveNext s

/-- The state whose next step fetches and runs the instruction with bits `w` (log 17). -/
def State.withFetchWord (s : State) (nbits w : Nat) : State := s.placeWord (BitVec.ofNat 16 (w % 2 ^ nbits))

end Sys2Proof.Machine
end

