-- ==== Sys2Proof/Safety.lean ====
section
/-! DEFINITION. The terms claims are made in: the parts of the state and what leaves them alone, the invariant of
spec/10_state.md R46, and the pixels a sprite covers. -/

namespace Sys2Proof.Machine

/-- The parts of the state, each as fine as an instruction can change it. -/
inductive Part where
  | reg (x : Nibble)
  | pc
  | i
  | stackEntry (j : Fin Config.stackDepth)
  | sp
  | dt
  | st
  | keypad
  | waiting
  | byte (a : Nat)
  | pixel (row : Fin Config.screenH) (col : Fin Config.screenW)
  | cfg
  | fault
  | accI
  | accT
  | draws
  | events
  | subscribers
  | rndNo
  | calls
  deriving DecidableEq, Repr

/-- A part holds the same in two states; a byte of memory as it is read. -/
def Part.Same (s t : State) : Part → Prop
  | .reg x => t.reg x = s.reg x
  | .pc => t.pc = s.pc
  | .i => t.i = s.i
  | .stackEntry j => t.stack[j.val]'j.isLt = s.stack[j.val]'j.isLt
  | .sp => t.sp = s.sp
  | .dt => t.dt = s.dt
  | .st => t.st = s.st
  | .keypad => t.keypad = s.keypad
  | .waiting => t.waiting = s.waiting
  | .byte a => t.mem.read a = s.mem.read a
  | .pixel row col => t.fb.pixel row col = s.fb.pixel row col
  | .cfg => t.cfg = s.cfg
  | .fault => t.fault = s.fault
  | .accI => t.accI = s.accI
  | .accT => t.accT = s.accT
  | .draws => t.draws = s.draws
  | .events => t.events = s.events
  | .subscribers => t.subscribers = s.subscribers
  | .rndNo => t.rndNo = s.rndNo
  | .calls => t.calls = s.calls

/-- Every part outside `changed` holds the same in both states: the frame of a change. -/
def OnlyChanges (changed : Part → Prop) (s t : State) : Prop := ∀ p, ¬ changed p → Part.Same s t p

/-- The change is a fault entry and nothing else (spec/60_exceptions.md R262, R263): the five fault registers hold
the cause, the pc of `s`, the opcode and INFO, and every other part is as it was. -/
def FaultsWith (cause : Cause) (op : Word) (info : Int) (s t : State) : Prop :=
  t.fault.faulted = true ∧ t.fault.cause = cause ∧ t.fault.fpc = s.pc ∧ t.fault.fop = op ∧ t.fault.info = info ∧
    OnlyChanges (· = .fault) s t

/-- The invariant of the machine: the bounds of R46 on the stack entries and pc (the other bounds of R46 hold by the
fields' types), memory in canonical form, one record per counted draw event (spec/60_exceptions.md R282), and fault
registers that are clear exactly while no fault is recorded (R37, R262). -/
def State.Inv (s : State) : Prop :=
  s.mem.wf ∧
  (∀ j : Fin Config.stackDepth, (s.stack[j.val]'j.isLt).toNat ≤ 0x1000) ∧
  s.pc.toNat ≤ 0x10FE ∧
  s.draws = s.events.length ∧
  (s.fault.faulted = false → s.fault = FaultRegs.clear) ∧
  (s.fault.faulted = true → s.fault.cause ≠ .none)

/-- The sprite at I, n rows high, placed at (Vx, Vy) in the state `s`, has a set bit that lands on the screen pixel
(spec/40_display.md R112, R113): bit 7 - c of the byte at I + r, wrapped on both axes. -/
def State.SpriteCovers (s : State) (x y n : Nibble) (row : Fin Config.screenH) (col : Fin Config.screenW) : Prop :=
  ∃ r c : Nat, r < n.toNat ∧ c < 8 ∧ (s.mem.read (s.i.toNat + r)).getLsbD (7 - c) = true ∧
    ((s.reg y).toNat + r) % Config.screenH = row.val ∧ ((s.reg x).toNat + c) % Config.screenW = col.val

/-- The condition under which each instruction faults, as spec/60_exceptions.md R261 tabulates it; for every
instruction the table does not name, none. -/
def FaultCondition : Instr → State → Prop
  | .ret, s => s.spInt = -1
  | .call _, s => s.spInt = 15
  | .drw _ _ n, s => ∃ k, k < n.toNat ∧ 4096 ≤ s.i.toNat + k
  | .ldBVx _, s => ∃ k, k < 3 ∧ 4096 ≤ s.i.toNat + k
  | .storeRegs x, s => ∃ k, k ≤ x.toNat ∧ 4096 ≤ s.i.toNat + k
  | .loadRegs x, s => ∃ k, k ≤ x.toNat ∧ 4096 ≤ s.i.toNat + k
  | .skp x, s => 15 < (s.reg x).toNat
  | .sknp x, s => 15 < (s.reg x).toNat
  | .ldVxK x, s => s.waiting = true ∧ s.reg x ≠ 0xFF#8 ∧ 15 < (s.reg x).toNat
  | .cls, _ => False
  | .jp _, _ => False
  | .seByte _ _, _ => False
  | .sneByte _ _, _ => False
  | .seReg _ _, _ => False
  | .ldByte _ _, _ => False
  | .addByte _ _, _ => False
  | .ldReg _ _, _ => False
  | .orReg _ _, _ => False
  | .andReg _ _, _ => False
  | .xorReg _ _, _ => False
  | .addReg _ _, _ => False
  | .subReg _ _, _ => False
  | .shrReg _ _, _ => False
  | .subnReg _ _, _ => False
  | .shlReg _ _, _ => False
  | .sneReg _ _, _ => False
  | .ldI _, _ => False
  | .jpV0 _, _ => False
  | .rnd _ _, _ => False
  | .ldVxDt _, _ => False
  | .ldDtVx _, _ => False
  | .ldStVx _, _ => False
  | .addIVx _, _ => False
  | .ldFVx _, _ => False
  | .noop _, _ => False

/-- The cause an instruction raises when its fault condition holds (R261). -/
def FaultCause : Instr → Cause
  | .ret => .stackUnderflow
  | .call _ => .stackOverflow
  | .drw _ _ _ => .memReadOob
  | .loadRegs _ => .memReadOob
  | .ldBVx _ => .memWriteOob
  | .storeRegs _ => .memWriteOob
  | .skp _ => .keyIndex
  | .sknp _ => .keyIndex
  | .ldVxK _ => .keyIndex
  | .cls => .none
  | .jp _ => .none
  | .seByte _ _ => .none
  | .sneByte _ _ => .none
  | .seReg _ _ => .none
  | .ldByte _ _ => .none
  | .addByte _ _ => .none
  | .ldReg _ _ => .none
  | .orReg _ _ => .none
  | .andReg _ _ => .none
  | .xorReg _ _ => .none
  | .addReg _ _ => .none
  | .subReg _ _ => .none
  | .shrReg _ _ => .none
  | .subnReg _ _ => .none
  | .shlReg _ _ => .none
  | .sneReg _ _ => .none
  | .ldI _ => .none
  | .jpV0 _ => .none
  | .rnd _ _ => .none
  | .ldVxDt _ => .none
  | .ldDtVx _ => .none
  | .ldStVx _ => .none
  | .addIVx _ => .none
  | .ldFVx _ => .none
  | .noop _ => .none

/-- INFO of an instruction's fault (R261, R264): SP, the lowest address out of range, or Vx. -/
def FaultInfo : Instr → State → Int
  | .ret, s => s.spInt
  | .call _, s => s.spInt
  | .drw _ _ _, s => ((max s.i.toNat 4096 : Nat) : Int)
  | .ldBVx _, s => ((max s.i.toNat 4096 : Nat) : Int)
  | .storeRegs _, s => ((max s.i.toNat 4096 : Nat) : Int)
  | .loadRegs _, s => ((max s.i.toNat 4096 : Nat) : Int)
  | .skp x, s => ((s.reg x).toNat : Int)
  | .sknp x, s => ((s.reg x).toNat : Int)
  | .ldVxK x, s => ((s.reg x).toNat : Int)
  | .cls, _ => 0
  | .jp _, _ => 0
  | .seByte _ _, _ => 0
  | .sneByte _ _, _ => 0
  | .seReg _ _, _ => 0
  | .ldByte _ _, _ => 0
  | .addByte _ _, _ => 0
  | .ldReg _ _, _ => 0
  | .orReg _ _, _ => 0
  | .andReg _ _, _ => 0
  | .xorReg _ _, _ => 0
  | .addReg _ _, _ => 0
  | .subReg _ _, _ => 0
  | .shrReg _ _, _ => 0
  | .subnReg _ _, _ => 0
  | .shlReg _ _, _ => 0
  | .sneReg _ _, _ => 0
  | .ldI _, _ => 0
  | .jpV0 _, _ => 0
  | .rnd _ _, _ => 0
  | .ldVxDt _, _ => 0
  | .ldDtVx _, _ => 0
  | .ldStVx _, _ => 0
  | .addIVx _, _ => 0
  | .ldFVx _, _ => 0
  | .noop _, _ => 0

/-- The instructions that set pc themselves (spec/10_state.md R26): jumps, calls, returns, skips and the key wait. -/
def MovesPc : Instr → Prop
  | .ret => True
  | .jp _ => True
  | .call _ => True
  | .seByte _ _ => True
  | .sneByte _ _ => True
  | .seReg _ _ => True
  | .sneReg _ _ => True
  | .jpV0 _ => True
  | .skp _ => True
  | .sknp _ => True
  | .ldVxK _ => True
  | .cls => False
  | .ldByte _ _ => False
  | .addByte _ _ => False
  | .ldReg _ _ => False
  | .orReg _ _ => False
  | .andReg _ _ => False
  | .xorReg _ _ => False
  | .addReg _ _ => False
  | .subReg _ _ => False
  | .shrReg _ _ => False
  | .subnReg _ _ => False
  | .shlReg _ _ => False
  | .ldI _ => False
  | .rnd _ _ => False
  | .drw _ _ _ => False
  | .ldVxDt _ => False
  | .ldDtVx _ => False
  | .ldStVx _ => False
  | .addIVx _ => False
  | .ldFVx _ => False
  | .ldBVx _ => False
  | .storeRegs _ => False
  | .loadRegs _ => False
  | .noop _ => False

/-- The parts an instruction may write besides pc and, where it faults, the fault registers: what the instruction
rules of spec/40_display.md to spec/44_keys_timers.md name (spec/10_state.md R24, R28, R30, R32-R35, R41). -/
def MayWrite (s : State) : Instr → Part → Prop
  | .cls, p => (∃ r c, p = .pixel r c) ∨ p = .draws ∨ p = .events
  | .drw _ _ _, p => (∃ r c, p = .pixel r c) ∨ p = .reg 0xF#4 ∨ p = .draws ∨ p = .events
  | .ret, p => p = .sp
  | .call _, p => p = .sp ∨ ∃ j, p = .stackEntry j ∧ (j.val : Int) = s.spInt + 1
  | .ldByte x _, p => p = .reg x
  | .addByte x _, p => p = .reg x
  | .ldReg x _, p => p = .reg x
  | .orReg x _, p => p = .reg x
  | .andReg x _, p => p = .reg x
  | .xorReg x _, p => p = .reg x
  | .addReg x _, p => p = .reg x ∨ p = .reg 0xF#4
  | .subReg x _, p => p = .reg x ∨ p = .reg 0xF#4
  | .shrReg x _, p => p = .reg x ∨ p = .reg 0xF#4
  | .subnReg x _, p => p = .reg x ∨ p = .reg 0xF#4
  | .shlReg x _, p => p = .reg x ∨ p = .reg 0xF#4
  | .rnd x _, p => p = .reg x ∨ p = .rndNo
  | .ldVxDt x, p => p = .reg x
  | .ldVxK x, p => p = .reg x ∨ p = .keypad ∨ p = .waiting
  | .ldDtVx _, p => p = .dt
  | .ldStVx _, p => p = .st
  | .ldI _, p => p = .i
  | .addIVx _, p => p = .i
  | .ldFVx _, p => p = .i
  | .ldBVx _, p => ∃ k, k < 3 ∧ p = .byte (s.i.toNat + k)
  | .storeRegs x, p => ∃ k, k ≤ x.toNat ∧ p = .byte (s.i.toNat + k)
  | .loadRegs x, p => ∃ y : Nibble, y.toNat ≤ x.toNat ∧ p = .reg y
  | .jp _, _ => False
  | .jpV0 _, _ => False
  | .seByte _ _, _ => False
  | .sneByte _ _, _ => False
  | .seReg _ _, _ => False
  | .sneReg _ _, _ => False
  | .skp _, _ => False
  | .sknp _, _ => False
  | .noop _, _ => False

end Sys2Proof.Machine
end

