-- ==== Sys2Proof/Certificates/Slice0/Obligations.lean ====
section
/-! DEFINITION. The statements about the machine. Each names the rule of spec/ it formalises. -/

open Sys2Proof Sys2Proof.Machine

/-! ## Encoding and decoding -/

/-- R87, R95: no bit of an encoding is dropped; every operand at every value its field admits. -/
def Obligations.DecodeEncodeRoundTrip : Prop :=
  ∀ i : Instr, i.WellFormed → decodeWord (encode i) = i

/-- R101: every word decodes to one well-formed instruction, and that instruction's encoding is the word, so no other
well-formed instruction decodes from it. -/
def Obligations.DecoderIsTotalAndExact : Prop :=
  ∀ w : Word, (decodeWord w).WellFormed ∧ encode (decodeWord w) = w ∧
    ∀ i : Instr, i.WellFormed → encode i = w → i = decodeWord w

/-- R86: the rows of the opcode map are disjoint, a word of a row decodes to that row's instruction, and a word of no
row to the no-op. -/
def Obligations.DecoderFollowsOpcodeMap : Prop :=
  (∀ w : Word, ∀ r ∈ opcodeMap, ∀ r' ∈ opcodeMap, r.Matches w → r'.Matches w → r = r') ∧
  (∀ w : Word, ∀ r ∈ opcodeMap, r.Matches w ↔ (decodeWord w).row = some r) ∧
  (∀ w : Word, (∀ r ∈ opcodeMap, ¬ r.Matches w) ↔ decodeWord w = .noop w)

/-- 95_test_vectors.md §2.1, the decode samples: one or more words of every family. -/
def Obligations.DecodesSampleWords : Prop :=
  decodeWord 0x00E0#16 = .cls ∧ decodeWord 0x00EE#16 = .ret ∧ decodeWord 0x1ABC#16 = .jp 0xABC#12 ∧
  decodeWord 0x2ABC#16 = .call 0xABC#12 ∧ decodeWord 0x3A5C#16 = .seByte 0xA#4 0x5C#8 ∧
  decodeWord 0x5AB0#16 = .seReg 0xA#4 0xB#4 ∧ decodeWord 0x8AB4#16 = .addReg 0xA#4 0xB#4 ∧
  decodeWord 0x8ABE#16 = .shlReg 0xA#4 0xB#4 ∧ decodeWord 0xBABC#16 = .jpV0 0xABC#12 ∧
  decodeWord 0xDAB7#16 = .drw 0xA#4 0xB#4 0x7#4 ∧ decodeWord 0xEA9E#16 = .skp 0xA#4 ∧
  decodeWord 0xFA65#16 = .loadRegs 0xA#4 ∧ decodeWord 0x0123#16 = .noop 0x0123#16 ∧
  decodeWord 0x5121#16 = .noop 0x5121#16

/-! ## Fetch, faults and the whole machine -/

/-- R80, R81: with no host call waiting (the model's own convention, log 6) and no fault recorded, when the two bytes at pc decode to an instruction, the
step is that instruction's `exec` on the same state; nothing is added around it. -/
def Obligations.StepRunsDecodedInstruction : Prop :=
  ∀ (s : State) (i : Instr), s.calls = [] → s.fault.faulted = false → s.pc.toNat + 1 < 4096 →
    decodeBytes [s.mem.read s.pc.toNat, s.mem.read (s.pc.toNat + 1)] = .ok (i, []) →
    step s = exec i s

/-- R81, R62: while FAULTED nothing is fetched and nothing written; a fetch below MEM_SIZE reads the byte at pc as bits 15..8 and the byte at pc + 1 as bits 7..0; a fetch
with pc + 1 at or above MEM_SIZE faults FETCH_OOB with INFO = pc and no opcode (R64). -/
def Obligations.FetchReadsBigEndianOrFaults : Prop :=
  ∀ s : State, (s.fault.faulted = true → serve .step s = .next s) ∧
    (s.fault.faulted = false → s.pc.toNat + 1 < 4096 → ∀ op : Word,
      op.toNat = 256 * (s.mem.read s.pc.toNat).toNat + (s.mem.read (s.pc.toNat + 1)).toNat →
      serve .step s = exec (decodeWord op) s) ∧
    (s.fault.faulted = false → 4096 ≤ s.pc.toNat + 1 →
      ∃ t, serve .step s = .next t ∧ FaultsWith .fetchOob 0x0000#16 (s.pc.toNat : Int) s t)

/-- R82: pc after the pre-advance is a + 2, which never wraps after a fetch, or a while WAITING; and that is where
every instruction leaves pc that does not set pc itself and does not fault. -/
def Obligations.PreAdvanceSetsPc : Prop :=
  ∀ s : State, s.pc.toNat + 1 < 4096 →
    s.postPc.toNat = (if s.waiting then s.pc.toNat else s.pc.toNat + 2) ∧
    ∀ i : Instr, ¬ MovesPc i → ¬ FaultCondition i s → ∃ t, exec i s = .next t ∧
      t.pc.toNat = (if s.waiting then s.pc.toNat else s.pc.toNat + 2)

/-- R267: in FAULTED, STEP writes nothing and returns the stored fault; EXECUTE still runs its timer part, and no
step; FAULTED is sticky: only RESET clears it. -/
def Obligations.FaultedMachineOnlyTicks : Prop :=
  ∀ s : State, s.fault.faulted = true →
    serve .step s = .next s ∧
    reply .step s = .fault s.fault.cause.code s.fault.fpc s.fault.fop s.fault.info ∧
    (∀ c : HostCall, c ≠ .reset → ∃ t, serve c s = .next t ∧ t.fault = s.fault) ∧
    (∃ t, serve .reset s = .next t ∧ t.fault.faulted = false) ∧
    ∀ dt : Nat, ∃ t, serve (.execute dt) s = .next t ∧
      t.accI = s.accI + dt ∧ t.accT = (if 16000 ≤ s.accT + dt then 0 else s.accT + dt) ∧
      t.dt.toNat = (if 16000 ≤ s.accT + dt then s.dt.toNat - 1 else s.dt.toNat) ∧
      t.st.toNat = (if 16000 ≤ s.accT + dt then s.st.toNat - 1 else s.st.toNat) ∧
      OnlyChanges (fun p => p = .dt ∨ p = .st ∨ p = .accI ∨ p = .accT) s t

/-- No word is refused (R97, R101), and, by the model's own conventions, every step of every state answers a next
state: a fault and a STEP while FAULTED are next states (log 7, DEDUCED; spec/93_implementation_defined.md U2 calls
FAULTED stuck), and `exec` is defined on states no step reaches too (log 13, DESIGN CHOICE). -/
def Obligations.EveryStepCompletes : Prop :=
  (∀ s : State, ∃ t, step s = .next t) ∧ ∀ (i : Instr) (s : State), ∃ t, exec i s = .next t

/-- R262, R263: a step that records a fault writes the fault registers and nothing else: CAUSE, FPC = a, FOP = the
opcode at a or 0x0000 where none could be fetched, INFO; and STEP returns that fault. -/
def Obligations.FaultsArePrecise : Prop :=
  ∀ s t : State, s.fault.faulted = false → serve .step s = .next t → t.fault.faulted = true →
    ∃ cause info, cause ≠ .none ∧
      FaultsWith cause
        (if s.pc.toNat + 1 < 4096 then wordOfBytes (s.mem.read s.pc.toNat) (s.mem.read (s.pc.toNat + 1))
          else 0x0000#16) info s t ∧
      reply .step s = .fault cause.code s.pc t.fault.fop info

/-- R261, R264: an instruction faults exactly under the table's condition, with the table's cause and INFO; no other
instruction faults; a fetch faults FETCH_OOB with pc + 1 at or above MEM_SIZE and never below; and the causes have the table's codes. -/
def Obligations.FaultsExactlyByTheTable : Prop :=
  (∀ (i : Instr) (s : State), s.fault.faulted = false →
    (FaultCondition i s → ∃ t, exec i s = .next t ∧ FaultsWith (FaultCause i) (encode i) (FaultInfo i s) s t) ∧
    (¬ FaultCondition i s → ∃ t, exec i s = .next t ∧ t.fault = s.fault)) ∧
  (∀ s : State, s.fault.faulted = false → 4096 ≤ s.pc.toNat + 1 →
    ∃ t, serve .step s = .next t ∧ FaultsWith .fetchOob 0x0000#16 (s.pc.toNat : Int) s t) ∧
  (∀ s : State, s.fault.faulted = false → s.pc.toNat + 1 < 4096 →
    ∃ t, serve .step s = .next t ∧ (t.fault.faulted = true → t.fault.cause ≠ .fetchOob)) ∧
  Cause.none.code = 0#8 ∧ Cause.stackUnderflow.code = 1#8 ∧ Cause.stackOverflow.code = 2#8 ∧
  Cause.fetchOob.code = 3#8 ∧ Cause.memReadOob.code = 4#8 ∧ Cause.memWriteOob.code = 5#8 ∧ Cause.keyIndex.code = 6#8

/-- R207 and the instruction rules: outside pc, the fault registers and the parts `MayWrite` names for it, an
instruction leaves every register, flag, memory byte, stack entry, pixel, timer and host-side register as it was. -/
def Obligations.InstructionsWriteOnlyTheirParts : Prop :=
  ∀ (i : Instr) (s t : State), exec i s = .next t →
    OnlyChanges (fun p => MayWrite s i p ∨ p = .pc ∨ (p = .fault ∧ FaultCondition i s)) s t

/-- The invariant holds at power-on for every value of the parameters, and so at reset. -/
def Obligations.PowerOnMeetsInvariant : Prop :=
  (∀ (ips0 : Int) (acc60 accE0 : Bool), (State.powerOn ips0 acc60 accE0).Inv) ∧ State.reset.Inv

/-- R46: every step, faulting or not, an instruction or a host call, keeps the invariant. -/
def Obligations.StepKeepsInvariant : Prop :=
  ∀ s t : State, s.Inv → step s = .next t → t.Inv

/-! ## Display instructions -/

/-- R111. -/
def Obligations.ClearScreen : Prop :=
  (encode .cls).toNat = 0x00E0 ∧
  ∀ s : State, ∃ t, exec .cls s = .next t ∧
    (∀ r c, t.fb.pixel r c = false) ∧ t.draws = s.draws + 1 ∧ t.events = s.events ++ [⟨t.fb, s.subscribers⟩] ∧
    t.pc = s.postPc ∧
    OnlyChanges (fun p => (∃ r c, p = .pixel r c) ∨ p = .draws ∨ p = .events ∨ p = .pc) s t

/-- R112, R113: when every sprite byte lies in memory, exactly the pixels the sprite covers are XORed, VF says whether
one of them was set, and one draw event is issued; else MEM_READ_OOB with the lowest address out of range. -/
def Obligations.DrawSprite : Prop :=
  ∀ (s : State) (x y n : Nibble),
    (encode (.drw x y n)).toNat = 0xD000 + 0x100 * x.toNat + 0x10 * y.toNat + n.toNat ∧
    ((∀ k, k < n.toNat → s.i.toNat + k < 4096) → ∃ t, exec (.drw x y n) s = .next t ∧
      (∀ r c, s.SpriteCovers x y n r c → t.fb.pixel r c = !s.fb.pixel r c) ∧
      ((∃ r c, s.SpriteCovers x y n r c ∧ s.fb.pixel r c = true) → t.reg 0xF#4 = 1#8) ∧
      ((∀ r c, s.SpriteCovers x y n r c → s.fb.pixel r c = false) → t.reg 0xF#4 = 0#8) ∧
      t.draws = s.draws + 1 ∧ t.events = s.events ++ [⟨t.fb, s.subscribers⟩] ∧ t.pc = s.postPc ∧
      OnlyChanges (fun p => (∃ r c, p = .pixel r c ∧ s.SpriteCovers x y n r c) ∨ p = .reg 0xF#4 ∨ p = .draws ∨
        p = .events ∨ p = .pc) s t) ∧
    (∀ k, k < n.toNat → 4096 ≤ s.i.toNat + k → (∀ j, j < k → s.i.toNat + j < 4096) →
      ∃ t, exec (.drw x y n) s = .next t ∧
        FaultsWith .memReadOob (encode (.drw x y n)) ((s.i.toNat + k : Nat) : Int) s t)

/-- R114: a draw of no rows cannot fault, changes no pixel, clears VF and still issues the draw event. -/
def Obligations.DrawOfNoRows : Prop :=
  ∀ (s : State) (x y : Nibble), ∃ t, exec (.drw x y 0x0#4) s = .next t ∧
    t.fb = s.fb ∧ t.reg 0xF#4 = 0#8 ∧ t.draws = s.draws + 1 ∧ t.events = s.events ++ [⟨s.fb, s.subscribers⟩] ∧
    t.pc = s.postPc ∧ OnlyChanges (fun p => p = .reg 0xF#4 ∨ p = .draws ∨ p = .events ∨ p = .pc) s t

/-- R115: the same sprite drawn twice at the same position restores the framebuffer, and the second VF is 1 exactly
when the first draw turned a pixel on. The same position: Vx and Vy hold after the first draw what they held before
it (with x or y = 0xF the first draw's flag may have moved it). -/
def Obligations.DrawTwiceRestoresScreen : Prop :=
  ∀ (s t : State) (x y n : Nibble), (∀ k, k < n.toNat → s.i.toNat + k < 4096) →
    exec (.drw x y n) s = .next t → t.reg x = s.reg x → t.reg y = s.reg y →
    ∃ u, exec (.drw x y n) t = .next u ∧ u.fb = s.fb ∧ u.draws = s.draws + 2 ∧
      ((∃ r c, s.fb.pixel r c = false ∧ t.fb.pixel r c = true) → u.reg 0xF#4 = 1#8) ∧
      ((∀ r c, s.fb.pixel r c = false → t.fb.pixel r c = false) → u.reg 0xF#4 = 0#8)

/-! ## Control transfer -/

/-- R131. -/
def Obligations.ReturnFromSubroutine : Prop :=
  (encode .ret).toNat = 0x00EE ∧
  (∀ (s : State) (k : Fin 16), s.sp = some k → ∃ t, exec .ret s = .next t ∧
    t.pc = s.stack[k.val] ∧ t.spInt = s.spInt - 1 ∧ OnlyChanges (fun p => p = .pc ∨ p = .sp) s t) ∧
  (∀ s : State, s.spInt = -1 → ∃ t, exec .ret s = .next t ∧ FaultsWith .stackUnderflow 0x00EE#16 (-1) s t)

/-- R134, R135: SP is raised first and the entry it then names receives the post-increment pc; the 17th frame
faults. -/
def Obligations.CallSubroutine : Prop :=
  ∀ (s : State) (nnn : Addr12),
    (encode (.call nnn)).toNat = 0x2000 + nnn.toNat ∧
    (s.spInt < 15 → ∃ t, exec (.call nnn) s = .next t ∧ t.pc.toNat = nnn.toNat ∧
      ∃ k : Fin 16, (k.val : Int) = s.spInt + 1 ∧ t.sp = some k ∧ t.stack[k.val] = s.postPc ∧
        OnlyChanges (fun p => p = .pc ∨ p = .sp ∨ p = .stackEntry k) s t) ∧
    (s.spInt = 15 → ∃ t, exec (.call nnn) s = .next t ∧ FaultsWith .stackOverflow (encode (.call nnn)) 15 s t)

/-- R132: a call at a and the matching return resume at a + 2 with the stack pointer as before. -/
def Obligations.CallThenReturnResumes : Prop :=
  ∀ (s : State) (nnn : Addr12), s.waiting = false → s.spInt < 15 →
    ∃ t u, exec (.call nnn) s = .next t ∧ exec .ret t = .next u ∧ u.pc = s.pc + 2#16 ∧ u.spInt = s.spInt ∧
      OnlyChanges (fun p => p = .pc ∨ p = .sp ∨ ∃ k, p = .stackEntry k ∧ (k.val : Int) = s.spInt + 1) s u

/-- R133: the jump itself checks nothing; a jump to 0xFFF faults at the next fetch. -/
def Obligations.JumpToAddress : Prop :=
  ∀ (s : State) (nnn : Addr12), (encode (.jp nnn)).toNat = 0x1000 + nnn.toNat ∧
    ∃ t, exec (.jp nnn) s = .next t ∧ t.pc.toNat = nnn.toNat ∧ OnlyChanges (· = .pc) s t ∧
      (s.fault.faulted = false → 4095 ≤ t.pc.toNat →
        ∃ u, serve .step t = .next u ∧ FaultsWith .fetchOob 0x0000#16 (t.pc.toNat : Int) t u)

/-- R140, R141: the target is nnn + V0, unreduced, at most 0x10FE; a target at or above 0x0FFF faults at the
next fetch. -/
def Obligations.JumpWithOffset : Prop :=
  ∀ (s : State) (nnn : Addr12), (encode (.jpV0 nnn)).toNat = 0xB000 + nnn.toNat ∧
    ∃ t, exec (.jpV0 nnn) s = .next t ∧ t.pc.toNat = nnn.toNat + (s.reg 0x0#4).toNat ∧ t.pc.toNat ≤ 0x10FE ∧
      OnlyChanges (· = .pc) s t ∧
      (s.fault.faulted = false → 4095 ≤ t.pc.toNat →
        ∃ u, serve .step t = .next u ∧ FaultsWith .fetchOob 0x0000#16 (t.pc.toNat : Int) t u)

/-- R136, R137: the skip itself checks nothing; a skip past the end of memory faults at the next fetch. -/
def Obligations.SkipOnByte : Prop :=
  ∀ (s : State) (x : Nibble) (kk : Byte),
    (encode (.seByte x kk)).toNat = 0x3000 + 0x100 * x.toNat + kk.toNat ∧
    (encode (.sneByte x kk)).toNat = 0x4000 + 0x100 * x.toNat + kk.toNat ∧
    (∃ t, exec (.seByte x kk) s = .next t ∧
      t.pc = (if (s.reg x).toNat = kk.toNat then s.postPc + 2#16 else s.postPc) ∧ OnlyChanges (· = .pc) s t ∧
      (s.fault.faulted = false → 4095 ≤ t.pc.toNat →
        ∃ u, serve .step t = .next u ∧ FaultsWith .fetchOob 0x0000#16 (t.pc.toNat : Int) t u)) ∧
    (∃ t, exec (.sneByte x kk) s = .next t ∧
      t.pc = (if (s.reg x).toNat = kk.toNat then s.postPc else s.postPc + 2#16) ∧ OnlyChanges (· = .pc) s t ∧
      (s.fault.faulted = false → 4095 ≤ t.pc.toNat →
        ∃ u, serve .step t = .next u ∧ FaultsWith .fetchOob 0x0000#16 (t.pc.toNat : Int) t u))

/-- R138, R139; 5xyN and 9xyN with N other than 0 are no-ops (R89). -/
def Obligations.SkipOnRegisters : Prop :=
  ∀ (s : State) (x y : Nibble),
    (encode (.seReg x y)).toNat = 0x5000 + 0x100 * x.toNat + 0x10 * y.toNat ∧
    (encode (.sneReg x y)).toNat = 0x9000 + 0x100 * x.toNat + 0x10 * y.toNat ∧
    (∀ (n : Nibble) (w : Word), n ≠ 0x0#4 →
      w.toNat = 0x5000 + 0x100 * x.toNat + 0x10 * y.toNat + n.toNat ∨
        w.toNat = 0x9000 + 0x100 * x.toNat + 0x10 * y.toNat + n.toNat →
      decodeWord w = .noop w) ∧
    (∃ t, exec (.seReg x y) s = .next t ∧
      t.pc = (if (s.reg x).toNat = (s.reg y).toNat then s.postPc + 2#16 else s.postPc) ∧
      OnlyChanges (· = .pc) s t) ∧
    (∃ t, exec (.sneReg x y) s = .next t ∧
      t.pc = (if (s.reg x).toNat = (s.reg y).toNat then s.postPc else s.postPc + 2#16) ∧
      OnlyChanges (· = .pc) s t)

/-- R96: a word of no row is a no-op, which changes nothing beyond the pre-advance: pc is a + 2, or a while WAITING. -/
def Obligations.UnknownWordIsNoOp : Prop :=
  ∀ w : Word, (∀ r ∈ opcodeMap, ¬ r.Matches w) → decodeWord w = .noop w ∧ ∀ s : State,
    ∃ t, exec (.noop w) s = .next t ∧ t.pc = (if s.waiting then s.pc else s.pc + 2#16) ∧
      OnlyChanges (· = .pc) s t

/-! ## Register loads and the ALU -/

/-- R161. -/
def Obligations.LoadByte : Prop :=
  ∀ (s : State) (x : Nibble) (kk : Byte), (encode (.ldByte x kk)).toNat = 0x6000 + 0x100 * x.toNat + kk.toNat ∧
    ∃ t, exec (.ldByte x kk) s = .next t ∧ t.reg x = kk ∧ t.pc = s.postPc ∧
      OnlyChanges (fun p => p = .reg x ∨ p = .pc) s t

/-- R162: the sum wraps at 256 and no flag is written. -/
def Obligations.AddByteWithoutFlag : Prop :=
  ∀ (s : State) (x : Nibble) (kk : Byte), (encode (.addByte x kk)).toNat = 0x7000 + 0x100 * x.toNat + kk.toNat ∧
    ∃ t, exec (.addByte x kk) s = .next t ∧ (t.reg x).toNat = ((s.reg x).toNat + kk.toNat) % 256 ∧ t.pc = s.postPc ∧
      OnlyChanges (fun p => p = .reg x ∨ p = .pc) s t

/-- R163. -/
def Obligations.CopyRegister : Prop :=
  ∀ (s : State) (x y : Nibble), (encode (.ldReg x y)).toNat = 0x8000 + 0x100 * x.toNat + 0x10 * y.toNat ∧
    ∃ t, exec (.ldReg x y) s = .next t ∧ t.reg x = s.reg y ∧ t.pc = s.postPc ∧
      OnlyChanges (fun p => p = .reg x ∨ p = .pc) s t

/-- R164, R165, R166: bit by bit, and VF is not written. -/
def Obligations.BitwiseOperations : Prop :=
  ∀ (s : State) (x y : Nibble),
    (encode (.orReg x y)).toNat = 0x8001 + 0x100 * x.toNat + 0x10 * y.toNat ∧
    (encode (.andReg x y)).toNat = 0x8002 + 0x100 * x.toNat + 0x10 * y.toNat ∧
    (encode (.xorReg x y)).toNat = 0x8003 + 0x100 * x.toNat + 0x10 * y.toNat ∧
    (∃ t, exec (.orReg x y) s = .next t ∧
      (∀ k, (t.reg x).getLsbD k = ((s.reg x).getLsbD k || (s.reg y).getLsbD k)) ∧ t.pc = s.postPc ∧
      OnlyChanges (fun p => p = .reg x ∨ p = .pc) s t) ∧
    (∃ t, exec (.andReg x y) s = .next t ∧
      (∀ k, (t.reg x).getLsbD k = ((s.reg x).getLsbD k && (s.reg y).getLsbD k)) ∧ t.pc = s.postPc ∧
      OnlyChanges (fun p => p = .reg x ∨ p = .pc) s t) ∧
    (∃ t, exec (.xorReg x y) s = .next t ∧
      (∀ k, (t.reg x).getLsbD k = ((s.reg x).getLsbD k ^^ (s.reg y).getLsbD k)) ∧ t.pc = s.postPc ∧
      OnlyChanges (fun p => p = .reg x ∨ p = .pc) s t)

/-- R167, R42: VF is the carry, whatever x is. -/
def Obligations.AddWithCarryOut : Prop :=
  ∀ (s : State) (x y : Nibble), (encode (.addReg x y)).toNat = 0x8004 + 0x100 * x.toNat + 0x10 * y.toNat ∧
    ∃ t, exec (.addReg x y) s = .next t ∧
      (x ≠ 0xF#4 → (t.reg x).toNat = ((s.reg x).toNat + (s.reg y).toNat) % 256) ∧
      (t.reg 0xF#4).toNat = (if 255 < (s.reg x).toNat + (s.reg y).toNat then 1 else 0) ∧ t.pc = s.postPc ∧
      OnlyChanges (fun p => p = .reg x ∨ p = .reg 0xF#4 ∨ p = .pc) s t

/-- R168, R42: the difference wraps at 256; VF is Vx > Vy before the step, strictly. -/
def Obligations.SubtractWithStrictFlag : Prop :=
  ∀ (s : State) (x y : Nibble), (encode (.subReg x y)).toNat = 0x8005 + 0x100 * x.toNat + 0x10 * y.toNat ∧
    ∃ t, exec (.subReg x y) s = .next t ∧
      (x ≠ 0xF#4 → ((t.reg x).toNat : Int) = ((s.reg x).toNat - (s.reg y).toNat : Int) % 256) ∧
      (t.reg 0xF#4).toNat = (if (s.reg y).toNat < (s.reg x).toNat then 1 else 0) ∧ t.pc = s.postPc ∧
      OnlyChanges (fun p => p = .reg x ∨ p = .reg 0xF#4 ∨ p = .pc) s t

/-- R170, R42: the reverse difference; VF is Vy > Vx before the step, strictly, whatever the toggles say. -/
def Obligations.ReverseSubtractWithStrictFlag : Prop :=
  ∀ (s : State) (x y : Nibble), (encode (.subnReg x y)).toNat = 0x8007 + 0x100 * x.toNat + 0x10 * y.toNat ∧
    ∃ t, exec (.subnReg x y) s = .next t ∧
      (x ≠ 0xF#4 → ((t.reg x).toNat : Int) = ((s.reg y).toNat - (s.reg x).toNat : Int) % 256) ∧
      (t.reg 0xF#4).toNat = (if (s.reg x).toNat < (s.reg y).toNat then 1 else 0) ∧ t.pc = s.postPc ∧
      OnlyChanges (fun p => p = .reg x ∨ p = .reg 0xF#4 ∨ p = .pc) s t

/-- R169, R173, R42: half of the source, which accurate_8xy6 selects; VF is the bit shifted out. -/
def Obligations.ShiftRightByToggle : Prop :=
  ∀ (s : State) (x y : Nibble) (src : Nat), src = (if s.cfg.acc6 then s.reg y else s.reg x).toNat →
    (encode (.shrReg x y)).toNat = 0x8006 + 0x100 * x.toNat + 0x10 * y.toNat ∧
    ∃ t, exec (.shrReg x y) s = .next t ∧ (x ≠ 0xF#4 → (t.reg x).toNat = src / 2) ∧
      (t.reg 0xF#4).toNat = src % 2 ∧ t.pc = s.postPc ∧
      OnlyChanges (fun p => p = .reg x ∨ p = .reg 0xF#4 ∨ p = .pc) s t

/-- R171, R173, R42: twice the source, which accurate_8xyE selects, modulo 256; VF is the bit shifted out. -/
def Obligations.ShiftLeftByToggle : Prop :=
  ∀ (s : State) (x y : Nibble) (src : Nat), src = (if s.cfg.accE then s.reg y else s.reg x).toNat →
    (encode (.shlReg x y)).toNat = 0x800E + 0x100 * x.toNat + 0x10 * y.toNat ∧
    ∃ t, exec (.shlReg x y) s = .next t ∧ (x ≠ 0xF#4 → (t.reg x).toNat = 2 * src % 256) ∧
      (t.reg 0xF#4).toNat = src / 128 ∧ t.pc = s.postPc ∧
      OnlyChanges (fun p => p = .reg x ∨ p = .reg 0xF#4 ∨ p = .pc) s t

/-- R175, R16: kk masked with a fresh draw, which is a free value: the statement holds for every sequence of draws
(log 5). -/
def Obligations.RandomByteMasked : Prop :=
  ∀ (s : State) (x : Nibble) (kk : Byte), (encode (.rnd x kk)).toNat = 0xC000 + 0x100 * x.toNat + kk.toNat ∧
    ∃ t, exec (.rnd x kk) s = .next t ∧
      (∀ k, (t.reg x).getLsbD k = (kk.getLsbD k && (Config.rnd s.rndNo).getLsbD k)) ∧ t.rndNo = s.rndNo + 1 ∧
      t.pc = s.postPc ∧ OnlyChanges (fun p => p = .reg x ∨ p = .rndNo ∨ p = .pc) s t

/-! ## Address register, loads and stores -/

/-- R201. -/
def Obligations.SetAddressRegister : Prop :=
  ∀ (s : State) (nnn : Addr12), (encode (.ldI nnn)).toNat = 0xA000 + nnn.toNat ∧
    ∃ t, exec (.ldI nnn) s = .next t ∧ t.i.toNat = nnn.toNat ∧ t.pc = s.postPc ∧
      OnlyChanges (fun p => p = .i ∨ p = .pc) s t

/-- R202: the sum wraps at 2^16; VF is not written and no sum faults. -/
def Obligations.AddToAddressRegister : Prop :=
  ∀ (s : State) (x : Nibble), (encode (.addIVx x)).toNat = 0xF01E + 0x100 * x.toNat ∧
    ∃ t, exec (.addIVx x) s = .next t ∧ t.i.toNat = (s.i.toNat + (s.reg x).toNat) % 65536 ∧ t.pc = s.postPc ∧
      OnlyChanges (fun p => p = .i ∨ p = .pc) s t

/-- R203: five times Vx, not masked. -/
def Obligations.AddressOfGlyph : Prop :=
  ∀ (s : State) (x : Nibble), (encode (.ldFVx x)).toNat = 0xF029 + 0x100 * x.toNat ∧
    ∃ t, exec (.ldFVx x) s = .next t ∧ t.i.toNat = 5 * (s.reg x).toNat ∧ t.pc = s.postPc ∧
      OnlyChanges (fun p => p = .i ∨ p = .pc) s t

/-- R204: the three decimal digits at I, I + 1 and I + 2, or MEM_WRITE_OOB at the lowest address out of range with
nothing written. -/
def Obligations.StoreDecimalDigits : Prop :=
  ∀ (s : State) (x : Nibble),
    (encode (.ldBVx x)).toNat = 0xF033 + 0x100 * x.toNat ∧
    (s.i.toNat + 2 < 4096 → ∃ t, exec (.ldBVx x) s = .next t ∧
      (t.mem.read s.i.toNat).toNat = (s.reg x).toNat / 100 ∧
      (t.mem.read (s.i.toNat + 1)).toNat = (s.reg x).toNat / 10 % 10 ∧
      (t.mem.read (s.i.toNat + 2)).toNat = (s.reg x).toNat % 10 ∧ t.pc = s.postPc ∧
      OnlyChanges (fun p => (∃ k, k < 3 ∧ p = .byte (s.i.toNat + k)) ∨ p = .pc) s t) ∧
    (4096 ≤ s.i.toNat + 2 → ∃ t, exec (.ldBVx x) s = .next t ∧
      FaultsWith .memWriteOob (encode (.ldBVx x)) ((max s.i.toNat 4096 : Nat) : Int) s t)

/-- R205: V0 to Vx at I to I + x, I unchanged, or MEM_WRITE_OOB with no byte written. -/
def Obligations.StoreRegistersAtI : Prop :=
  ∀ (s : State) (x : Nibble),
    (encode (.storeRegs x)).toNat = 0xF055 + 0x100 * x.toNat ∧
    (s.i.toNat + x.toNat < 4096 → ∃ t, exec (.storeRegs x) s = .next t ∧
      (∀ y : Nibble, y.toNat ≤ x.toNat → t.mem.read (s.i.toNat + y.toNat) = s.reg y) ∧ t.pc = s.postPc ∧
      OnlyChanges (fun p => (∃ k, k ≤ x.toNat ∧ p = .byte (s.i.toNat + k)) ∨ p = .pc) s t) ∧
    (4096 ≤ s.i.toNat + x.toNat → ∃ t, exec (.storeRegs x) s = .next t ∧
      FaultsWith .memWriteOob (encode (.storeRegs x)) ((max s.i.toNat 4096 : Nat) : Int) s t)

/-- R206: V0 to Vx from I to I + x, I unchanged, or MEM_READ_OOB with no register written. -/
def Obligations.LoadRegistersFromI : Prop :=
  ∀ (s : State) (x : Nibble),
    (encode (.loadRegs x)).toNat = 0xF065 + 0x100 * x.toNat ∧
    (s.i.toNat + x.toNat < 4096 → ∃ t, exec (.loadRegs x) s = .next t ∧
      (∀ y : Nibble, y.toNat ≤ x.toNat → t.reg y = s.mem.read (s.i.toNat + y.toNat)) ∧ t.pc = s.postPc ∧
      OnlyChanges (fun p => (∃ y : Nibble, y.toNat ≤ x.toNat ∧ p = .reg y) ∨ p = .pc) s t) ∧
    (4096 ≤ s.i.toNat + x.toNat → ∃ t, exec (.loadRegs x) s = .next t ∧
      FaultsWith .memReadOob (encode (.loadRegs x)) ((max s.i.toNat 4096 : Nat) : Int) s t)

/-! ## Keypad and timers -/

/-- R230, R231: the skip on the key Vx as KEYPAD holds it, or KEY_INDEX when Vx names no key. -/
def Obligations.SkipOnKey : Prop :=
  ∀ (s : State) (x : Nibble),
    (encode (.skp x)).toNat = 0xE09E + 0x100 * x.toNat ∧ (encode (.sknp x)).toNat = 0xE0A1 + 0x100 * x.toNat ∧
    ((s.reg x).toNat ≤ 15 →
      (∃ t, exec (.skp x) s = .next t ∧
        t.pc = (if s.keypad.getLsbD (s.reg x).toNat then s.postPc + 2#16 else s.postPc) ∧
        OnlyChanges (· = .pc) s t) ∧
      (∃ t, exec (.sknp x) s = .next t ∧
        t.pc = (if s.keypad.getLsbD (s.reg x).toNat then s.postPc else s.postPc + 2#16) ∧
        OnlyChanges (· = .pc) s t)) ∧
    (15 < (s.reg x).toNat →
      (∃ t, exec (.skp x) s = .next t ∧ FaultsWith .keyIndex (encode (.skp x)) ((s.reg x).toNat : Int) s t) ∧
      (∃ t, exec (.sknp x) s = .next t ∧ FaultsWith .keyIndex (encode (.sknp x)) ((s.reg x).toNat : Int) s t))

/-- R232, R237, R238. -/
def Obligations.TimerTransfers : Prop :=
  ∀ (s : State) (x : Nibble),
    (encode (.ldVxDt x)).toNat = 0xF007 + 0x100 * x.toNat ∧ (encode (.ldDtVx x)).toNat = 0xF015 + 0x100 * x.toNat ∧
    (encode (.ldStVx x)).toNat = 0xF018 + 0x100 * x.toNat ∧
    (∃ t, exec (.ldVxDt x) s = .next t ∧ t.reg x = s.dt ∧ t.pc = s.postPc ∧
      OnlyChanges (fun p => p = .reg x ∨ p = .pc) s t) ∧
    (∃ t, exec (.ldDtVx x) s = .next t ∧ t.dt = s.reg x ∧ t.pc = s.postPc ∧
      OnlyChanges (fun p => p = .dt ∨ p = .pc) s t) ∧
    (∃ t, exec (.ldStVx x) s = .next t ∧ t.st = s.reg x ∧ t.pc = s.postPc ∧
      OnlyChanges (fun p => p = .st ∨ p = .pc) s t)

/-- R233, R234, R235: the three states of Fx0A and the fault of the key-held one. -/
def Obligations.WaitForKey : Prop :=
  ∀ (s : State) (x : Nibble),
    (encode (.ldVxK x)).toNat = 0xF00A + 0x100 * x.toNat ∧
    -- idle
    (s.waiting = false → ∃ t, exec (.ldVxK x) s = .next t ∧ t.keypad = 0#16 ∧ t.reg x = 0xFF#8 ∧ t.waiting = true ∧
      OnlyChanges (fun p => p = .keypad ∨ p = .reg x ∨ p = .waiting) s t) ∧
    -- waiting, no key pressed
    (s.waiting = true → s.reg x = 0xFF#8 → s.keypad = 0#16 → exec (.ldVxK x) s = .next s) ∧
    -- waiting, k the highest pressed key
    (s.waiting = true → s.reg x = 0xFF#8 → ∀ k, k < 16 → s.keypad.getLsbD k = true →
      (∀ j, k < j → j < 16 → s.keypad.getLsbD j = false) →
      ∃ t, exec (.ldVxK x) s = .next t ∧ (t.reg x).toNat = k ∧ OnlyChanges (· = .reg x) s t) ∧
    -- key-held, still pressed
    (s.waiting = true → (s.reg x).toNat ≤ 15 → s.keypad.getLsbD (s.reg x).toNat = true →
      exec (.ldVxK x) s = .next s) ∧
    -- key-held, released
    (s.waiting = true → (s.reg x).toNat ≤ 15 → s.keypad.getLsbD (s.reg x).toNat = false →
      ∃ t, exec (.ldVxK x) s = .next t ∧ t.waiting = false ∧ t.pc = s.pc + 2#16 ∧
        OnlyChanges (fun p => p = .waiting ∨ p = .pc) s t) ∧
    -- key-held with no key's number
    (s.waiting = true → s.reg x ≠ 0xFF#8 → 15 < (s.reg x).toNat →
      ∃ t, exec (.ldVxK x) s = .next t ∧ FaultsWith .keyIndex (encode (.ldVxK x)) ((s.reg x).toNat : Int) s t)

/-! ## The scheduler -/

/-- R275, R276, R277, R280: EXECUTE(dt) accumulates, ticks both timers when 16000 microseconds have passed, and then,
unless paused, makes at most one STEP when ACC_I has reached 1000000 / IPS; ACC_I is cleared unless that step
faulted. -/
def Obligations.ExecuteFollowsSchedule : Prop :=
  ∀ (s : State) (dt : Nat), ∃ u : State,
    u.accI = s.accI + dt ∧ u.accT = (if 16000 ≤ s.accT + dt then 0 else s.accT + dt) ∧
    u.dt.toNat = (if 16000 ≤ s.accT + dt then s.dt.toNat - 1 else s.dt.toNat) ∧
    u.st.toNat = (if 16000 ≤ s.accT + dt then s.st.toNat - 1 else s.st.toNat) ∧
    OnlyChanges (fun p => p = .dt ∨ p = .st ∨ p = .accI ∨ p = .accT) s u ∧
    (s.cfg.ips ≤ 0 → serve (.execute dt) s = .next u) ∧
    (0 < s.cfg.ips → s.accI + dt < 1000000 / s.cfg.ips.toNat → serve (.execute dt) s = .next u) ∧
    (0 < s.cfg.ips → 1000000 / s.cfg.ips.toNat ≤ s.accI + dt → ∃ v, serve .step u = .next v ∧
      (v.fault.faulted = true → serve (.execute dt) s = .next v) ∧
      (v.fault.faulted = false → ∃ w, serve (.execute dt) s = .next w ∧ w.accI = 0 ∧ OnlyChanges (· = .accI) v w))

/-- R286: a direct STEP touches neither accumulator and does not tick the timers: only Fx15 and Fx18 change them. -/
def Obligations.DirectStepBypassesScheduler : Prop :=
  ∀ s t : State, serve .step s = .next t → t.accI = s.accI ∧ t.accT = s.accT ∧
    (t.dt ≠ s.dt → ∃ x, decodeWord (wordOfBytes (s.mem.read s.pc.toNat) (s.mem.read (s.pc.toNat + 1))) = .ldDtVx x) ∧
    (t.st ≠ s.st → ∃ x, decodeWord (wordOfBytes (s.mem.read s.pc.toNat) (s.mem.read (s.pc.toNat + 1))) = .ldStVx x)

/-- R279: with dt = 1000 per call the timers tick once every 16 calls, here with the core paused so that no step
interferes: after n calls from ACC_T = 0, n up to 16, they have ticked only if n = 16. That the calls wait in a list and
a step serves one is the model's own convention (log 6). -/
def Obligations.TimersTickEverySixteenCalls : Prop :=
  ∀ (s : State) (n : Nat) (rest : List HostCall), s.cfg.ips ≤ 0 → s.accT = 0 → n ≤ 16 →
    s.calls = List.replicate n (.execute 1000) ++ rest →
    ∃ t, core.run n s = .next t ∧
      t.dt.toNat = (if n = 16 then s.dt.toNat - 1 else s.dt.toNat) ∧
      t.st.toNat = (if n = 16 then s.st.toNat - 1 else s.st.toNat) ∧
      t.accT = (if n = 16 then 0 else 1000 * n) ∧ t.accI = s.accI + 1000 * n ∧ t.calls = rest ∧
      OnlyChanges (fun p => p = .dt ∨ p = .st ∨ p = .accI ∨ p = .accT ∨ p = .calls) s t

/-! ## Host operations -/

/-- R44, R302: the state at power-on, for every value of the parameters IPS0, ACC6_0 and ACCE_0 (R10), with FONT under
its name (R40); the two fields of the model's own are not spoken of. -/
def Obligations.PowerOnState : Prop :=
  ∀ (ips0 : Int) (acc60 accE0 : Bool) (s : State), s = State.powerOn ips0 acc60 accE0 →
    s.pc = 0x200#16 ∧ s.i = 0#16 ∧ (∀ x, s.reg x = 0#8) ∧ s.dt = 0#8 ∧ s.st = 0#8 ∧ s.spInt = -1 ∧
    (∀ j : Fin 16, s.stack[j.val] = 0#16) ∧ s.keypad = 0#16 ∧ s.waiting = false ∧
    (∀ a, a < 80 → s.mem.read a = Config.font.getD a 0#8) ∧ (∀ a, 80 ≤ a → a < 4096 → s.mem.read a = 0#8) ∧
    (∀ r c, s.fb.pixel r c = false) ∧ s.fault.faulted = false ∧ s.fault.cause.code = 0#8 ∧ s.fault.fpc = 0#16 ∧
    s.fault.fop = 0#16 ∧ s.fault.info = 0 ∧ s.draws = 0 ∧ s.events = [] ∧ s.subscribers = [] ∧ s.accI = 0 ∧
    s.accT = 0 ∧ s.cfg.ips = ips0 ∧ s.cfg.acc6 = acc60 ∧ s.cfg.accE = accE0

/-- R300, R301: RESET gives every field of the machine state its value at power-on, and leaves the configuration, the
accumulators, the draw counter and records and the subscribers. -/
def Obligations.ResetRestoresMachineState : Prop :=
  ∀ s : State, ∃ t, serve .reset s = .next t ∧
    t.pc = 0x200#16 ∧ t.i = 0#16 ∧ (∀ x, t.reg x = 0#8) ∧ t.dt = 0#8 ∧ t.st = 0#8 ∧ t.spInt = -1 ∧
    (∀ j : Fin 16, t.stack[j.val] = 0#16) ∧ t.keypad = 0#16 ∧ t.waiting = false ∧
    (∀ a, a < 80 → t.mem.read a = Config.font.getD a 0#8) ∧ (∀ a, 80 ≤ a → a < 4096 → t.mem.read a = 0#8) ∧
    (∀ r c, t.fb.pixel r c = false) ∧ t.fault = FaultRegs.clear ∧
    t.cfg = s.cfg ∧ t.accI = s.accI ∧ t.accT = s.accT ∧ t.draws = s.draws ∧ t.events = s.events ∧
    t.subscribers = s.subscribers ∧ t.rndNo = s.rndNo

/-- R304, R310, R311: LOAD of at most 3584 bytes puts byte k at 0x200 + k and changes nothing else; a longer image
changes nothing and returns file_too_big. -/
def Obligations.LoadCopiesImage : Prop :=
  ∀ (s : State) (image : List Byte),
    (image.length ≤ 3584 → reply (.load image) s = .ok ∧ ∃ t, serve (.load image) s = .next t ∧
      (∀ k (h : k < image.length), t.mem.read (0x200 + k) = image[k]) ∧
      OnlyChanges (fun p => ∃ k, k < image.length ∧ p = .byte (0x200 + k)) s t) ∧
    (3584 < image.length → reply (.load image) s = .fileTooBig ∧ serve (.load image) s = .next s)

/-- R74, R310, R314: the fetch sees what LOAD has just written: a program whose first two bytes are hi and lo, loaded
where pc stands at the reset entry point, has its first instruction run by the very next step. That LOAD waits in a list
and a step serves it is the model's own convention (log 6). -/
def Obligations.LoadedProgramRuns : Prop :=
  ∀ (s : State) (hi lo : Byte) (image : List Byte), s.calls = [.load (hi :: lo :: image)] → s.pc = 0x200#16 →
    s.fault.faulted = false → image.length + 2 ≤ 3584 →
    ∃ t, step s = .next t ∧ step t = exec (decodeWord (wordOfBytes hi lo)) t ∧
      t.mem.read 0x200 = hi ∧ t.mem.read 0x201 = lo

/-- R281, R287, R282: WRITE_KEYPAD sets KEYPAD whole, WRITE_CONFIG the configuration, SUBSCRIBE adds a subscriber after
those registered before it; each changes nothing else. -/
def Obligations.HostWritesOneThing : Prop :=
  ∀ s : State,
    (∀ k : Word, ∃ t, serve (.writeKeypad k) s = .next t ∧ t.keypad = k ∧ OnlyChanges (· = .keypad) s t) ∧
    (∀ (ips : Int) (acc6 accE : Bool), ∃ t, serve (.writeConfig ips acc6 accE) s = .next t ∧
      t.cfg.ips = ips ∧ t.cfg.acc6 = acc6 ∧ t.cfg.accE = accE ∧ OnlyChanges (· = .cfg) s t) ∧
    (∀ cb : Nat, ∃ t, serve (.subscribe cb) s = .next t ∧ t.subscribers = s.subscribers ++ [cb] ∧
      OnlyChanges (· = .subscribers) s t)

/-- R35, R285: READ_FB changes nothing and returns the RGBA array, row-major, white for a set pixel and opaque black
for a clear one. -/
def Obligations.ReadFramebuffer : Prop :=
  ∀ s : State, serve .readFb s = .next s ∧ ∃ px : List Rgba, reply .readFb s = .frame px ∧
    px.length = Config.screenH * Config.screenW ∧
    ∀ (r : Fin Config.screenH) (c : Fin Config.screenW),
      px[r.val * Config.screenW + c.val]? =
        some (if s.fb.pixel r c then ⟨255#8, 255#8, 255#8, 255#8⟩ else ⟨0#8, 0#8, 0#8, 255#8⟩)

/-- R283, R285: READ_STATUS changes nothing and returns the fault registers and the sound output, ST > 0. -/
def Obligations.ReadStatus : Prop :=
  ∀ s : State, serve .readStatus s = .next s ∧ ∃ sound : Bool,
    reply .readStatus s =
      .status s.fault.faulted s.fault.cause.code s.fault.fpc s.fault.fop s.fault.info sound ∧
    (sound = true ↔ 0 < s.st.toNat)

/-- The model's own convention for R20 and R285 (log 6): a step serves the oldest host call waiting, and with none
waiting it is STEP. -/
def Obligations.HostCallsAreServedInOrder : Prop :=
  ∀ s : State, (s.calls = [] → step s = serve .step s) ∧
    ∀ (c : HostCall) (rest : List HostCall), s.calls = c :: rest →
      ∃ u, u.calls = rest ∧ OnlyChanges (· = .calls) s u ∧ step s = serve c u
end

