-- ==== Sys2Proof/Laws/Decode.lean ====
section
/-! SUPPORT. The fields of a word put together from its fields, one lemma per field per format of
spec/30_encoding.md R84, and the word its own fields put together. -/

namespace Sys2Proof

/-! ### The bits of each format -/

theorem bit_addr (t : Nibble) (nnn : Addr12) (i : Nat) :
    BitVec.getLsbD (t ++ nnn : Word) i = if i < 12 then nnn.getLsbD i else t.getLsbD (i - 12) := BitVec.getLsbD_append

theorem bit_byte (t x : Nibble) (kk : Byte) (i : Nat) :
    BitVec.getLsbD (t ++ x ++ kk : Word) i =
      if i < 8 then kk.getLsbD i else if i - 8 < 4 then x.getLsbD (i - 8) else t.getLsbD (i - 8 - 4) :=
  BitVec.getLsbD_append.trans (by rw [BitVec.getLsbD_append])

theorem bit_regs (t x y n : Nibble) (i : Nat) :
    BitVec.getLsbD (t ++ x ++ y ++ n : Word) i =
      if i < 4 then n.getLsbD i else if i - 4 < 4 then y.getLsbD (i - 4)
      else if i - 4 - 4 < 4 then x.getLsbD (i - 4 - 4) else t.getLsbD (i - 4 - 4 - 4) :=
  BitVec.getLsbD_append.trans (by rw [BitVec.getLsbD_append, BitVec.getLsbD_append])

theorem bit_bytes (hi lo : Byte) (i : Nat) :
    BitVec.getLsbD (wordOfBytes hi lo) i = if i < 8 then lo.getLsbD i else hi.getLsbD (i - 8) := BitVec.getLsbD_append

/-! ### The bits of each field -/

theorem bit_fieldT (w : Word) (i : Nat) : (fieldT w).getLsbD i = (decide (i < 4) && w.getLsbD (12 + i)) := by
  simp [fieldT]

theorem bit_fieldX (w : Word) (i : Nat) : (fieldX w).getLsbD i = (decide (i < 4) && w.getLsbD (8 + i)) := by
  simp [fieldX]

theorem bit_fieldY (w : Word) (i : Nat) : (fieldY w).getLsbD i = (decide (i < 4) && w.getLsbD (4 + i)) := by
  simp [fieldY]

theorem bit_fieldN (w : Word) (i : Nat) : (fieldN w).getLsbD i = (decide (i < 4) && w.getLsbD i) := by
  simp [fieldN]

theorem bit_fieldKK (w : Word) (i : Nat) : (fieldKK w).getLsbD i = (decide (i < 8) && w.getLsbD i) := by
  simp [fieldKK]

theorem bit_fieldNNN (w : Word) (i : Nat) : (fieldNNN w).getLsbD i = (decide (i < 12) && w.getLsbD i) := by
  simp [fieldNNN]

/-! ### The fields of each format -/

@[simp] theorem fieldT_addr (t : Nibble) (nnn : Addr12) : fieldT (t ++ nnn) = t := by
  apply BitVec.eq_of_getLsbD_eq
  intro i hi
  rw [bit_fieldT, bit_addr]
  rw [decide_eq_true hi, Bool.true_and]
  rw [if_neg (by omega)]; congr 1; omega

@[simp] theorem fieldNNN_addr (t : Nibble) (nnn : Addr12) : fieldNNN (t ++ nnn) = nnn := by
  apply BitVec.eq_of_getLsbD_eq
  intro i hi
  rw [bit_fieldNNN, bit_addr]
  rw [decide_eq_true hi, Bool.true_and]
  rw [if_pos hi]

@[simp] theorem fieldT_byte (t x : Nibble) (kk : Byte) : fieldT (t ++ x ++ kk) = t := by
  apply BitVec.eq_of_getLsbD_eq
  intro i hi
  rw [bit_fieldT, bit_byte]
  rw [decide_eq_true hi, Bool.true_and]
  rw [if_neg (by omega), if_neg (by omega)]; congr 1; omega

@[simp] theorem fieldX_byte (t x : Nibble) (kk : Byte) : fieldX (t ++ x ++ kk) = x := by
  apply BitVec.eq_of_getLsbD_eq
  intro i hi
  rw [bit_fieldX, bit_byte]
  rw [decide_eq_true hi, Bool.true_and]
  rw [if_neg (by omega), if_pos (by omega)]; congr 1; omega

@[simp] theorem fieldKK_byte (t x : Nibble) (kk : Byte) : fieldKK (t ++ x ++ kk) = kk := by
  apply BitVec.eq_of_getLsbD_eq
  intro i hi
  rw [bit_fieldKK, bit_byte]
  rw [decide_eq_true hi, Bool.true_and]
  rw [if_pos hi]

@[simp] theorem fieldT_regs (t x y n : Nibble) : fieldT (t ++ x ++ y ++ n) = t := by
  apply BitVec.eq_of_getLsbD_eq
  intro i hi
  rw [bit_fieldT, bit_regs]
  rw [decide_eq_true hi, Bool.true_and]
  rw [if_neg (by omega), if_neg (by omega), if_neg (by omega)]; congr 1; omega

@[simp] theorem fieldX_regs (t x y n : Nibble) : fieldX (t ++ x ++ y ++ n) = x := by
  apply BitVec.eq_of_getLsbD_eq
  intro i hi
  rw [bit_fieldX, bit_regs]
  rw [decide_eq_true hi, Bool.true_and]
  rw [if_neg (by omega), if_neg (by omega), if_pos (by omega)]; congr 1; omega

@[simp] theorem fieldY_regs (t x y n : Nibble) : fieldY (t ++ x ++ y ++ n) = y := by
  apply BitVec.eq_of_getLsbD_eq
  intro i hi
  rw [bit_fieldY, bit_regs]
  rw [decide_eq_true hi, Bool.true_and]
  rw [if_neg (by omega), if_pos (by omega)]; congr 1; omega

@[simp] theorem fieldN_regs (t x y n : Nibble) : fieldN (t ++ x ++ y ++ n) = n := by
  apply BitVec.eq_of_getLsbD_eq
  intro i hi
  rw [bit_fieldN, bit_regs]
  rw [decide_eq_true hi, Bool.true_and]
  rw [if_pos hi]

/-! ### A word is its fields put together -/

theorem addr_of_fields (w : Word) : fieldT w ++ fieldNNN w = w := by
  apply BitVec.eq_of_getLsbD_eq
  intro i hi
  rw [bit_addr]
  split
  · rw [bit_fieldNNN, decide_eq_true (by omega), Bool.true_and]
  · rw [bit_fieldT, decide_eq_true (by omega), Bool.true_and]; congr 1; omega

theorem byte_of_fields (w : Word) : fieldT w ++ fieldX w ++ fieldKK w = w := by
  apply BitVec.eq_of_getLsbD_eq
  intro i hi
  rw [bit_byte]
  split
  · rw [bit_fieldKK, decide_eq_true (by omega), Bool.true_and]
  · split
    · rw [bit_fieldX, decide_eq_true (by omega), Bool.true_and]; congr 1; omega
    · rw [bit_fieldT, decide_eq_true (by omega), Bool.true_and]; congr 1; omega

theorem regs_of_fields (w : Word) : fieldT w ++ fieldX w ++ fieldY w ++ fieldN w = w := by
  apply BitVec.eq_of_getLsbD_eq
  intro i hi
  rw [bit_regs]
  split
  · rw [bit_fieldN, decide_eq_true (by omega), Bool.true_and]
  · split
    · rw [bit_fieldY, decide_eq_true (by omega), Bool.true_and]; congr 1; omega
    · split
      · rw [bit_fieldX, decide_eq_true (by omega), Bool.true_and]; congr 1; omega
      · rw [bit_fieldT, decide_eq_true (by omega), Bool.true_and]; congr 1; omega

/-- The two bytes of a word, the one at the lower address first, are that word again (spec/20_memory.md R62). -/
@[simp] theorem wordOfBytes_high_low (w : Word) : wordOfBytes (highByte w) (lowByte w) = w := by
  apply BitVec.eq_of_getLsbD_eq
  intro i hi
  rw [bit_bytes]
  split
  · simp [lowByte]; omega
  · simp only [highByte, BitVec.getLsbD_extractLsb']
    rw [decide_eq_true (by omega), Bool.true_and]; congr 1; omega

end Sys2Proof
end

