-- ==== Sys2Proof/Laws/Memory.lean ====
section
/-! SUPPORT. The laws of memory: a read after a write to the same address gives the value written, a write leaves
every other address alone, and every operation keeps the canonical form. -/

namespace Sys2Proof.Machine

theorem Memory.read_erase_self (m : Memory) (a : Nat) : (m.erase a).read a = Config.resetByte a := by
  induction m with
  | nil => rfl
  | cons c m ih =>
    by_cases h : c.1 = a
    · simpa [Memory.erase, h] using ih
    · simpa [Memory.erase, h, Memory.read] using ih

theorem Memory.read_erase_ne (m : Memory) {a b : Nat} (h : b ≠ a) : (m.erase a).read b = m.read b := by
  induction m with
  | nil => rfl
  | cons c m ih =>
    by_cases hc : c.1 = a
    · have hb : ¬ a = b := fun e => h e.symm
      simpa [Memory.erase, hc, Memory.read, hb] using ih
    · simp only [Memory.erase] at ih
      simp [Memory.erase, hc, Memory.read, ih]

theorem Memory.not_mem_erase (m : Memory) (a : Nat) : ∀ c ∈ m.erase a, c.1 ≠ a := by
  intro c hc
  simpa [Memory.erase] using (List.mem_filter.1 hc).2

theorem Memory.read_insert_self (m : Memory) (a : Nat) (b : Byte) (h : ∀ c ∈ m, c.1 ≠ a) :
    (m.insert a b).read a = b := by
  induction m with
  | nil => simp [Memory.insert, Memory.read]
  | cons c m ih =>
    have hc : c.1 ≠ a := h c (by simp)
    unfold Memory.insert
    split
    · simp [Memory.read]
    · simpa [Memory.read, hc] using ih fun d hd => h d (by simp [hd])

theorem Memory.read_insert_ne (m : Memory) {a a' : Nat} (b : Byte) (h : a' ≠ a) :
    (m.insert a b).read a' = m.read a' := by
  have ha : ¬ a = a' := fun e => h e.symm
  induction m with
  | nil => simp [Memory.insert, Memory.read, ha]
  | cons c m ih =>
    unfold Memory.insert
    split
    · simp [Memory.read, ha]
    · simp [Memory.read, ih]

/-- A byte written reads back. -/
@[simp] theorem Memory.read_write_self (m : Memory) (a : Nat) (b : Byte) : (m.write a b).read a = b := by
  unfold Memory.write
  split
  · next h => rw [Memory.read_erase_self, h]
  · exact Memory.read_insert_self _ _ _ (Memory.not_mem_erase m a)

/-- A write leaves every other address alone. -/
theorem Memory.read_write_ne (m : Memory) {a a' : Nat} (b : Byte) (h : a' ≠ a) :
    (m.write a b).read a' = m.read a' := by
  unfold Memory.write
  split
  · exact Memory.read_erase_ne m h
  · rw [Memory.read_insert_ne _ _ h, Memory.read_erase_ne m h]

/-- What each address reads as after bytes are stored from `a` on. -/
theorem Memory.read_writeBytes (m : Memory) (a : Nat) (bs : List Byte) (a' : Nat) :
    (m.writeBytes a bs).read a' =
      if h : a ≤ a' ∧ a' < a + bs.length then bs[a' - a]'(by omega) else m.read a' := by
  induction bs generalizing m a with
  | nil => simp [Memory.writeBytes]
  | cons b bs ih =>
    rw [Memory.writeBytes, ih]
    by_cases h0 : a' = a
    · subst h0; simp
    · by_cases h1 : a ≤ a' ∧ a' < a + (bs.length + 1)
      · have e : a' - a = (a' - (a + 1)) + 1 := by omega
        rw [dif_pos (by omega), dif_pos (by simpa using h1)]
        simp [e]
      · rw [dif_neg (by omega), dif_neg (by simpa using h1), Memory.read_write_ne _ _ h0]

/-- Outside the stored bytes every address reads as before. -/
theorem Memory.read_writeBytes_outside (m : Memory) (a : Nat) (bs : List Byte) (a' : Nat)
    (h : a' < a ∨ a + bs.length ≤ a') : (m.writeBytes a bs).read a' = m.read a' := by
  rw [Memory.read_writeBytes, dif_neg (by omega)]

@[simp] theorem Memory.length_readBytes (m : Memory) (a k : Nat) : (m.readBytes a k).length = k := by
  induction k generalizing a with
  | zero => rfl
  | succ k ih => simp [Memory.readBytes, ih]

theorem Memory.getElem_readBytes (m : Memory) (a k j : Nat) (h : j < (m.readBytes a k).length) :
    (m.readBytes a k)[j] = m.read (a + j) := by
  induction k generalizing a j with
  | zero => simp [Memory.readBytes] at h
  | succ k ih =>
    cases j with
    | zero => rfl
    | succ j =>
      simp only [Memory.readBytes, List.getElem_cons_succ]
      rw [ih]; congr 1; omega

/-! ### The canonical form -/

theorem Memory.wf_nil : Memory.wf [] := by simp [Memory.wf]

theorem Memory.wf_erase {m : Memory} (h : m.wf) (a : Nat) : Memory.wf (m.erase a) :=
  ⟨h.1.filter _, fun c hc => h.2 c (List.mem_of_mem_filter hc)⟩

theorem Memory.mem_insert (m : Memory) (a : Nat) (b : Byte) (c : Host.Cell) :
    c ∈ m.insert a b ↔ c = (a, b) ∨ c ∈ m := by
  induction m with
  | nil => simp [Memory.insert]
  | cons d m ih =>
    unfold Memory.insert
    split
    · simp
    · simp only [List.mem_cons, ih]; tauto

theorem Memory.wf_insert {m : Memory} (h : m.wf) (a : Nat) (b : Byte) (ha : a < Config.memSize)
    (hb : b ≠ Config.resetByte a) (hne : ∀ c ∈ m, c.1 ≠ a) : Memory.wf (m.insert a b) := by
  refine ⟨?_, fun c hc => ?_⟩
  · have hs := h.1
    clear h
    induction m with
    | nil => simp [Memory.insert]
    | cons c m ih =>
      rw [List.pairwise_cons] at hs
      unfold Memory.insert
      split
      · next hlt =>
        refine List.pairwise_cons.2 ⟨fun d hd => ?_, List.pairwise_cons.2 hs⟩
        rcases List.mem_cons.1 hd with rfl | hd
        · exact hlt
        · exact hlt.trans (hs.1 d hd)
      · next hlt =>
        have hc : c.1 ≠ a := hne c (by simp)
        refine List.pairwise_cons.2 ⟨fun d hd => ?_, ih (fun d hd => hne d (by simp [hd])) hs.2⟩
        rcases (Memory.mem_insert m a b d).1 hd with rfl | hd
        · show c.1 < a
          omega
        · exact hs.1 d hd
  · rcases (Memory.mem_insert m a b c).1 hc with rfl | hc
    · exact ⟨ha, hb⟩
    · exact h.2 c hc

/-- A store below MEM_SIZE keeps the canonical form. -/
theorem Memory.wf_write {m : Memory} (h : m.wf) (a : Nat) (b : Byte) (ha : a < Config.memSize) :
    (m.write a b).wf := by
  unfold Memory.write
  split
  · exact Memory.wf_erase h a
  · next hb => exact Memory.wf_insert (Memory.wf_erase h a) a b ha hb (Memory.not_mem_erase m a)

/-- Stores below MEM_SIZE keep the canonical form. -/
theorem Memory.wf_writeBytes {m : Memory} (h : m.wf) (a : Nat) (bs : List Byte)
    (ha : a + bs.length ≤ Config.memSize) : (m.writeBytes a bs).wf := by
  induction bs generalizing m a with
  | nil => exact h
  | cons b bs ih =>
    simp only [List.length_cons] at ha
    exact ih (Memory.wf_write h a b (by omega)) (a + 1) (by omega)

theorem Memory.read_of_not_mem (m : Memory) (a : Nat) (h : ∀ c ∈ m, c.1 ≠ a) : m.read a = Config.resetByte a := by
  induction m with
  | nil => rfl
  | cons c m ih =>
    rw [Memory.read, if_neg (h c (by simp)), ih fun d hd => h d (by simp [hd])]

/-- A canonical memory reads a value other than the contents at reset exactly at its listed cells. -/
theorem Memory.mem_iff_read {m : Memory} (h : m.wf) (c : Host.Cell) :
    c ∈ m ↔ m.read c.1 = c.2 ∧ c.2 ≠ Config.resetByte c.1 := by
  constructor
  · intro hc
    refine ⟨?_, (h.2 c hc).2⟩
    have hs := h.1
    clear h
    induction m with
    | nil => simp at hc
    | cons d m ih =>
      rw [List.pairwise_cons] at hs
      rcases List.mem_cons.1 hc with rfl | hm
      · simp [Memory.read]
      · have : d.1 ≠ c.1 := Nat.ne_of_lt (hs.1 c hm)
        simpa [Memory.read, this] using ih hm hs.2
  · rintro ⟨hr, hne⟩
    by_contra hc
    have hs := h.1
    clear h
    induction m with
    | nil => exact hne hr.symm
    | cons d m ih =>
      rw [List.pairwise_cons] at hs
      by_cases hd : d.1 = c.1
      · refine hc (List.mem_cons.2 (.inl ?_))
        rw [Memory.read, if_pos hd] at hr
        exact Prod.ext hd.symm hr.symm
      · rw [Memory.read, if_neg hd] at hr
        exact ih hr (fun hm => hc (List.mem_cons_of_mem _ hm)) hs.2

/-- Canonical memories that read alike are the same list: equal memories are equal data. -/
theorem Memory.eq_of_read_eq {m m' : Memory} (h : m.wf) (h' : m'.wf) (hr : ∀ a, m.read a = m'.read a) : m = m' := by
  have hmem : ∀ c, c ∈ m ↔ c ∈ m' := fun c => by rw [Memory.mem_iff_read h, Memory.mem_iff_read h', hr]
  exact List.Perm.eq_of_pairwise (fun a b _ _ hab hba => absurd (hab.trans hba) (lt_irrefl _)) h.1 h'.1
    ((List.perm_ext_iff_of_nodup (h.1.imp fun e1 e2 => absurd (e2 ▸ e1) (lt_irrefl _))
      (h'.1.imp fun e1 e2 => absurd (e2 ▸ e1) (lt_irrefl _))).2 hmem)

end Sys2Proof.Machine
end

