-- ==== Sys2Proof/Laws/State.lean ====
section
/-! SUPPORT. One lemma per field per update of the state, true by rfl, so that no later proof unfolds a record
update. -/

namespace Sys2Proof.Machine

/-! ### jump -/

@[simp] theorem State.jump_mem (s : State) (target : Word) : (s.jump target).mem = s.mem := rfl
@[simp] theorem State.jump_v (s : State) (target : Word) : (s.jump target).v = s.v := rfl
@[simp] theorem State.jump_pc (s : State) (target : Word) : (s.jump target).pc = target := rfl
@[simp] theorem State.jump_i (s : State) (target : Word) : (s.jump target).i = s.i := rfl
@[simp] theorem State.jump_stack (s : State) (target : Word) : (s.jump target).stack = s.stack := rfl
@[simp] theorem State.jump_sp (s : State) (target : Word) : (s.jump target).sp = s.sp := rfl
@[simp] theorem State.jump_dt (s : State) (target : Word) : (s.jump target).dt = s.dt := rfl
@[simp] theorem State.jump_st (s : State) (target : Word) : (s.jump target).st = s.st := rfl
@[simp] theorem State.jump_keypad (s : State) (target : Word) : (s.jump target).keypad = s.keypad := rfl
@[simp] theorem State.jump_waiting (s : State) (target : Word) : (s.jump target).waiting = s.waiting := rfl
@[simp] theorem State.jump_fb (s : State) (target : Word) : (s.jump target).fb = s.fb := rfl
@[simp] theorem State.jump_cfg (s : State) (target : Word) : (s.jump target).cfg = s.cfg := rfl
@[simp] theorem State.jump_fault (s : State) (target : Word) : (s.jump target).fault = s.fault := rfl
@[simp] theorem State.jump_accI (s : State) (target : Word) : (s.jump target).accI = s.accI := rfl
@[simp] theorem State.jump_accT (s : State) (target : Word) : (s.jump target).accT = s.accT := rfl
@[simp] theorem State.jump_draws (s : State) (target : Word) : (s.jump target).draws = s.draws := rfl
@[simp] theorem State.jump_events (s : State) (target : Word) : (s.jump target).events = s.events := rfl
@[simp] theorem State.jump_subscribers (s : State) (target : Word) : (s.jump target).subscribers = s.subscribers := rfl
@[simp] theorem State.jump_rndNo (s : State) (target : Word) : (s.jump target).rndNo = s.rndNo := rfl
@[simp] theorem State.jump_calls (s : State) (target : Word) : (s.jump target).calls = s.calls := rfl

/-! ### preAdvance -/

@[simp] theorem State.preAdvance_mem (s : State) : s.preAdvance.mem = s.mem := rfl
@[simp] theorem State.preAdvance_v (s : State) : s.preAdvance.v = s.v := rfl
@[simp] theorem State.preAdvance_pc (s : State) : s.preAdvance.pc = s.postPc := rfl
@[simp] theorem State.preAdvance_i (s : State) : s.preAdvance.i = s.i := rfl
@[simp] theorem State.preAdvance_stack (s : State) : s.preAdvance.stack = s.stack := rfl
@[simp] theorem State.preAdvance_sp (s : State) : s.preAdvance.sp = s.sp := rfl
@[simp] theorem State.preAdvance_dt (s : State) : s.preAdvance.dt = s.dt := rfl
@[simp] theorem State.preAdvance_st (s : State) : s.preAdvance.st = s.st := rfl
@[simp] theorem State.preAdvance_keypad (s : State) : s.preAdvance.keypad = s.keypad := rfl
@[simp] theorem State.preAdvance_waiting (s : State) : s.preAdvance.waiting = s.waiting := rfl
@[simp] theorem State.preAdvance_fb (s : State) : s.preAdvance.fb = s.fb := rfl
@[simp] theorem State.preAdvance_cfg (s : State) : s.preAdvance.cfg = s.cfg := rfl
@[simp] theorem State.preAdvance_fault (s : State) : s.preAdvance.fault = s.fault := rfl
@[simp] theorem State.preAdvance_accI (s : State) : s.preAdvance.accI = s.accI := rfl
@[simp] theorem State.preAdvance_accT (s : State) : s.preAdvance.accT = s.accT := rfl
@[simp] theorem State.preAdvance_draws (s : State) : s.preAdvance.draws = s.draws := rfl
@[simp] theorem State.preAdvance_events (s : State) : s.preAdvance.events = s.events := rfl
@[simp] theorem State.preAdvance_subscribers (s : State) : s.preAdvance.subscribers = s.subscribers := rfl
@[simp] theorem State.preAdvance_rndNo (s : State) : s.preAdvance.rndNo = s.rndNo := rfl
@[simp] theorem State.preAdvance_calls (s : State) : s.preAdvance.calls = s.calls := rfl

/-! ### setReg -/

@[simp] theorem State.setReg_mem (s : State) (x : Nibble) (b : Byte) : (s.setReg x b).mem = s.mem := rfl
@[simp] theorem State.setReg_v (s : State) (x : Nibble) (b : Byte) : (s.setReg x b).v = s.v.set x.toNat b x.isLt := rfl
@[simp] theorem State.setReg_pc (s : State) (x : Nibble) (b : Byte) : (s.setReg x b).pc = s.pc := rfl
@[simp] theorem State.setReg_i (s : State) (x : Nibble) (b : Byte) : (s.setReg x b).i = s.i := rfl
@[simp] theorem State.setReg_stack (s : State) (x : Nibble) (b : Byte) : (s.setReg x b).stack = s.stack := rfl
@[simp] theorem State.setReg_sp (s : State) (x : Nibble) (b : Byte) : (s.setReg x b).sp = s.sp := rfl
@[simp] theorem State.setReg_dt (s : State) (x : Nibble) (b : Byte) : (s.setReg x b).dt = s.dt := rfl
@[simp] theorem State.setReg_st (s : State) (x : Nibble) (b : Byte) : (s.setReg x b).st = s.st := rfl
@[simp] theorem State.setReg_keypad (s : State) (x : Nibble) (b : Byte) : (s.setReg x b).keypad = s.keypad := rfl
@[simp] theorem State.setReg_waiting (s : State) (x : Nibble) (b : Byte) : (s.setReg x b).waiting = s.waiting := rfl
@[simp] theorem State.setReg_fb (s : State) (x : Nibble) (b : Byte) : (s.setReg x b).fb = s.fb := rfl
@[simp] theorem State.setReg_cfg (s : State) (x : Nibble) (b : Byte) : (s.setReg x b).cfg = s.cfg := rfl
@[simp] theorem State.setReg_fault (s : State) (x : Nibble) (b : Byte) : (s.setReg x b).fault = s.fault := rfl
@[simp] theorem State.setReg_accI (s : State) (x : Nibble) (b : Byte) : (s.setReg x b).accI = s.accI := rfl
@[simp] theorem State.setReg_accT (s : State) (x : Nibble) (b : Byte) : (s.setReg x b).accT = s.accT := rfl
@[simp] theorem State.setReg_draws (s : State) (x : Nibble) (b : Byte) : (s.setReg x b).draws = s.draws := rfl
@[simp] theorem State.setReg_events (s : State) (x : Nibble) (b : Byte) : (s.setReg x b).events = s.events := rfl
@[simp] theorem State.setReg_subscribers (s : State) (x : Nibble) (b : Byte) : (s.setReg x b).subscribers = s.subscribers := rfl
@[simp] theorem State.setReg_rndNo (s : State) (x : Nibble) (b : Byte) : (s.setReg x b).rndNo = s.rndNo := rfl
@[simp] theorem State.setReg_calls (s : State) (x : Nibble) (b : Byte) : (s.setReg x b).calls = s.calls := rfl

/-! ### storeBytes -/

@[simp] theorem State.storeBytes_mem (s : State) (a : Nat) (bs : List Byte) : (s.storeBytes a bs).mem = s.mem.writeBytes a bs := rfl
@[simp] theorem State.storeBytes_v (s : State) (a : Nat) (bs : List Byte) : (s.storeBytes a bs).v = s.v := rfl
@[simp] theorem State.storeBytes_pc (s : State) (a : Nat) (bs : List Byte) : (s.storeBytes a bs).pc = s.pc := rfl
@[simp] theorem State.storeBytes_i (s : State) (a : Nat) (bs : List Byte) : (s.storeBytes a bs).i = s.i := rfl
@[simp] theorem State.storeBytes_stack (s : State) (a : Nat) (bs : List Byte) : (s.storeBytes a bs).stack = s.stack := rfl
@[simp] theorem State.storeBytes_sp (s : State) (a : Nat) (bs : List Byte) : (s.storeBytes a bs).sp = s.sp := rfl
@[simp] theorem State.storeBytes_dt (s : State) (a : Nat) (bs : List Byte) : (s.storeBytes a bs).dt = s.dt := rfl
@[simp] theorem State.storeBytes_st (s : State) (a : Nat) (bs : List Byte) : (s.storeBytes a bs).st = s.st := rfl
@[simp] theorem State.storeBytes_keypad (s : State) (a : Nat) (bs : List Byte) : (s.storeBytes a bs).keypad = s.keypad := rfl
@[simp] theorem State.storeBytes_waiting (s : State) (a : Nat) (bs : List Byte) : (s.storeBytes a bs).waiting = s.waiting := rfl
@[simp] theorem State.storeBytes_fb (s : State) (a : Nat) (bs : List Byte) : (s.storeBytes a bs).fb = s.fb := rfl
@[simp] theorem State.storeBytes_cfg (s : State) (a : Nat) (bs : List Byte) : (s.storeBytes a bs).cfg = s.cfg := rfl
@[simp] theorem State.storeBytes_fault (s : State) (a : Nat) (bs : List Byte) : (s.storeBytes a bs).fault = s.fault := rfl
@[simp] theorem State.storeBytes_accI (s : State) (a : Nat) (bs : List Byte) : (s.storeBytes a bs).accI = s.accI := rfl
@[simp] theorem State.storeBytes_accT (s : State) (a : Nat) (bs : List Byte) : (s.storeBytes a bs).accT = s.accT := rfl
@[simp] theorem State.storeBytes_draws (s : State) (a : Nat) (bs : List Byte) : (s.storeBytes a bs).draws = s.draws := rfl
@[simp] theorem State.storeBytes_events (s : State) (a : Nat) (bs : List Byte) : (s.storeBytes a bs).events = s.events := rfl
@[simp] theorem State.storeBytes_subscribers (s : State) (a : Nat) (bs : List Byte) : (s.storeBytes a bs).subscribers = s.subscribers := rfl
@[simp] theorem State.storeBytes_rndNo (s : State) (a : Nat) (bs : List Byte) : (s.storeBytes a bs).rndNo = s.rndNo := rfl
@[simp] theorem State.storeBytes_calls (s : State) (a : Nat) (bs : List Byte) : (s.storeBytes a bs).calls = s.calls := rfl

/-! ### takeFault -/

@[simp] theorem State.takeFault_mem (s : State) (cause : Cause) (op : Word) (info : Int) : (s.takeFault cause op info).mem = s.mem := rfl
@[simp] theorem State.takeFault_v (s : State) (cause : Cause) (op : Word) (info : Int) : (s.takeFault cause op info).v = s.v := rfl
@[simp] theorem State.takeFault_pc (s : State) (cause : Cause) (op : Word) (info : Int) : (s.takeFault cause op info).pc = s.pc := rfl
@[simp] theorem State.takeFault_i (s : State) (cause : Cause) (op : Word) (info : Int) : (s.takeFault cause op info).i = s.i := rfl
@[simp] theorem State.takeFault_stack (s : State) (cause : Cause) (op : Word) (info : Int) : (s.takeFault cause op info).stack = s.stack := rfl
@[simp] theorem State.takeFault_sp (s : State) (cause : Cause) (op : Word) (info : Int) : (s.takeFault cause op info).sp = s.sp := rfl
@[simp] theorem State.takeFault_dt (s : State) (cause : Cause) (op : Word) (info : Int) : (s.takeFault cause op info).dt = s.dt := rfl
@[simp] theorem State.takeFault_st (s : State) (cause : Cause) (op : Word) (info : Int) : (s.takeFault cause op info).st = s.st := rfl
@[simp] theorem State.takeFault_keypad (s : State) (cause : Cause) (op : Word) (info : Int) : (s.takeFault cause op info).keypad = s.keypad := rfl
@[simp] theorem State.takeFault_waiting (s : State) (cause : Cause) (op : Word) (info : Int) : (s.takeFault cause op info).waiting = s.waiting := rfl
@[simp] theorem State.takeFault_fb (s : State) (cause : Cause) (op : Word) (info : Int) : (s.takeFault cause op info).fb = s.fb := rfl
@[simp] theorem State.takeFault_cfg (s : State) (cause : Cause) (op : Word) (info : Int) : (s.takeFault cause op info).cfg = s.cfg := rfl
@[simp] theorem State.takeFault_fault (s : State) (cause : Cause) (op : Word) (info : Int) : (s.takeFault cause op info).fault = ⟨true, cause, s.pc, op, info⟩ := rfl
@[simp] theorem State.takeFault_accI (s : State) (cause : Cause) (op : Word) (info : Int) : (s.takeFault cause op info).accI = s.accI := rfl
@[simp] theorem State.takeFault_accT (s : State) (cause : Cause) (op : Word) (info : Int) : (s.takeFault cause op info).accT = s.accT := rfl
@[simp] theorem State.takeFault_draws (s : State) (cause : Cause) (op : Word) (info : Int) : (s.takeFault cause op info).draws = s.draws := rfl
@[simp] theorem State.takeFault_events (s : State) (cause : Cause) (op : Word) (info : Int) : (s.takeFault cause op info).events = s.events := rfl
@[simp] theorem State.takeFault_subscribers (s : State) (cause : Cause) (op : Word) (info : Int) : (s.takeFault cause op info).subscribers = s.subscribers := rfl
@[simp] theorem State.takeFault_rndNo (s : State) (cause : Cause) (op : Word) (info : Int) : (s.takeFault cause op info).rndNo = s.rndNo := rfl
@[simp] theorem State.takeFault_calls (s : State) (cause : Cause) (op : Word) (info : Int) : (s.takeFault cause op info).calls = s.calls := rfl

/-! ### notifyDraw -/

@[simp] theorem State.notifyDraw_mem (s : State) : s.notifyDraw.mem = s.mem := rfl
@[simp] theorem State.notifyDraw_v (s : State) : s.notifyDraw.v = s.v := rfl
@[simp] theorem State.notifyDraw_pc (s : State) : s.notifyDraw.pc = s.pc := rfl
@[simp] theorem State.notifyDraw_i (s : State) : s.notifyDraw.i = s.i := rfl
@[simp] theorem State.notifyDraw_stack (s : State) : s.notifyDraw.stack = s.stack := rfl
@[simp] theorem State.notifyDraw_sp (s : State) : s.notifyDraw.sp = s.sp := rfl
@[simp] theorem State.notifyDraw_dt (s : State) : s.notifyDraw.dt = s.dt := rfl
@[simp] theorem State.notifyDraw_st (s : State) : s.notifyDraw.st = s.st := rfl
@[simp] theorem State.notifyDraw_keypad (s : State) : s.notifyDraw.keypad = s.keypad := rfl
@[simp] theorem State.notifyDraw_waiting (s : State) : s.notifyDraw.waiting = s.waiting := rfl
@[simp] theorem State.notifyDraw_fb (s : State) : s.notifyDraw.fb = s.fb := rfl
@[simp] theorem State.notifyDraw_cfg (s : State) : s.notifyDraw.cfg = s.cfg := rfl
@[simp] theorem State.notifyDraw_fault (s : State) : s.notifyDraw.fault = s.fault := rfl
@[simp] theorem State.notifyDraw_accI (s : State) : s.notifyDraw.accI = s.accI := rfl
@[simp] theorem State.notifyDraw_accT (s : State) : s.notifyDraw.accT = s.accT := rfl
@[simp] theorem State.notifyDraw_draws (s : State) : s.notifyDraw.draws = s.draws + 1 := rfl
@[simp] theorem State.notifyDraw_events (s : State) : s.notifyDraw.events = s.events ++ [⟨s.fb, s.subscribers⟩] := rfl
@[simp] theorem State.notifyDraw_subscribers (s : State) : s.notifyDraw.subscribers = s.subscribers := rfl
@[simp] theorem State.notifyDraw_rndNo (s : State) : s.notifyDraw.rndNo = s.rndNo := rfl
@[simp] theorem State.notifyDraw_calls (s : State) : s.notifyDraw.calls = s.calls := rfl

/-! ### setFlag -/

@[simp] theorem State.setFlag_mem (s : State) (flag : Bool) : (s.setFlag flag).mem = s.mem := rfl
@[simp] theorem State.setFlag_v (s : State) (flag : Bool) : (s.setFlag flag).v = s.v.set 15 (flagByte flag) (by decide) := rfl
@[simp] theorem State.setFlag_pc (s : State) (flag : Bool) : (s.setFlag flag).pc = s.pc := rfl
@[simp] theorem State.setFlag_i (s : State) (flag : Bool) : (s.setFlag flag).i = s.i := rfl
@[simp] theorem State.setFlag_stack (s : State) (flag : Bool) : (s.setFlag flag).stack = s.stack := rfl
@[simp] theorem State.setFlag_sp (s : State) (flag : Bool) : (s.setFlag flag).sp = s.sp := rfl
@[simp] theorem State.setFlag_dt (s : State) (flag : Bool) : (s.setFlag flag).dt = s.dt := rfl
@[simp] theorem State.setFlag_st (s : State) (flag : Bool) : (s.setFlag flag).st = s.st := rfl
@[simp] theorem State.setFlag_keypad (s : State) (flag : Bool) : (s.setFlag flag).keypad = s.keypad := rfl
@[simp] theorem State.setFlag_waiting (s : State) (flag : Bool) : (s.setFlag flag).waiting = s.waiting := rfl
@[simp] theorem State.setFlag_fb (s : State) (flag : Bool) : (s.setFlag flag).fb = s.fb := rfl
@[simp] theorem State.setFlag_cfg (s : State) (flag : Bool) : (s.setFlag flag).cfg = s.cfg := rfl
@[simp] theorem State.setFlag_fault (s : State) (flag : Bool) : (s.setFlag flag).fault = s.fault := rfl
@[simp] theorem State.setFlag_accI (s : State) (flag : Bool) : (s.setFlag flag).accI = s.accI := rfl
@[simp] theorem State.setFlag_accT (s : State) (flag : Bool) : (s.setFlag flag).accT = s.accT := rfl
@[simp] theorem State.setFlag_draws (s : State) (flag : Bool) : (s.setFlag flag).draws = s.draws := rfl
@[simp] theorem State.setFlag_events (s : State) (flag : Bool) : (s.setFlag flag).events = s.events := rfl
@[simp] theorem State.setFlag_subscribers (s : State) (flag : Bool) : (s.setFlag flag).subscribers = s.subscribers := rfl
@[simp] theorem State.setFlag_rndNo (s : State) (flag : Bool) : (s.setFlag flag).rndNo = s.rndNo := rfl
@[simp] theorem State.setFlag_calls (s : State) (flag : Bool) : (s.setFlag flag).calls = s.calls := rfl

/-! ### setRegs and skipIf, which recurse or branch -/

@[simp] theorem State.setRegs_mem (s : State) (k : Nat) (bs : List Byte) : (s.setRegs k bs).mem = s.mem := by
  induction bs generalizing s k with
  | nil => rfl
  | cons b bs ih => simpa [State.setRegs] using ih (s.setReg (BitVec.ofNat 4 k) b) (k + 1)
@[simp] theorem State.setRegs_pc (s : State) (k : Nat) (bs : List Byte) : (s.setRegs k bs).pc = s.pc := by
  induction bs generalizing s k with
  | nil => rfl
  | cons b bs ih => simpa [State.setRegs] using ih (s.setReg (BitVec.ofNat 4 k) b) (k + 1)
@[simp] theorem State.setRegs_i (s : State) (k : Nat) (bs : List Byte) : (s.setRegs k bs).i = s.i := by
  induction bs generalizing s k with
  | nil => rfl
  | cons b bs ih => simpa [State.setRegs] using ih (s.setReg (BitVec.ofNat 4 k) b) (k + 1)
@[simp] theorem State.setRegs_stack (s : State) (k : Nat) (bs : List Byte) : (s.setRegs k bs).stack = s.stack := by
  induction bs generalizing s k with
  | nil => rfl
  | cons b bs ih => simpa [State.setRegs] using ih (s.setReg (BitVec.ofNat 4 k) b) (k + 1)
@[simp] theorem State.setRegs_sp (s : State) (k : Nat) (bs : List Byte) : (s.setRegs k bs).sp = s.sp := by
  induction bs generalizing s k with
  | nil => rfl
  | cons b bs ih => simpa [State.setRegs] using ih (s.setReg (BitVec.ofNat 4 k) b) (k + 1)
@[simp] theorem State.setRegs_dt (s : State) (k : Nat) (bs : List Byte) : (s.setRegs k bs).dt = s.dt := by
  induction bs generalizing s k with
  | nil => rfl
  | cons b bs ih => simpa [State.setRegs] using ih (s.setReg (BitVec.ofNat 4 k) b) (k + 1)
@[simp] theorem State.setRegs_st (s : State) (k : Nat) (bs : List Byte) : (s.setRegs k bs).st = s.st := by
  induction bs generalizing s k with
  | nil => rfl
  | cons b bs ih => simpa [State.setRegs] using ih (s.setReg (BitVec.ofNat 4 k) b) (k + 1)
@[simp] theorem State.setRegs_keypad (s : State) (k : Nat) (bs : List Byte) : (s.setRegs k bs).keypad = s.keypad := by
  induction bs generalizing s k with
  | nil => rfl
  | cons b bs ih => simpa [State.setRegs] using ih (s.setReg (BitVec.ofNat 4 k) b) (k + 1)
@[simp] theorem State.setRegs_waiting (s : State) (k : Nat) (bs : List Byte) : (s.setRegs k bs).waiting = s.waiting := by
  induction bs generalizing s k with
  | nil => rfl
  | cons b bs ih => simpa [State.setRegs] using ih (s.setReg (BitVec.ofNat 4 k) b) (k + 1)
@[simp] theorem State.setRegs_fb (s : State) (k : Nat) (bs : List Byte) : (s.setRegs k bs).fb = s.fb := by
  induction bs generalizing s k with
  | nil => rfl
  | cons b bs ih => simpa [State.setRegs] using ih (s.setReg (BitVec.ofNat 4 k) b) (k + 1)
@[simp] theorem State.setRegs_cfg (s : State) (k : Nat) (bs : List Byte) : (s.setRegs k bs).cfg = s.cfg := by
  induction bs generalizing s k with
  | nil => rfl
  | cons b bs ih => simpa [State.setRegs] using ih (s.setReg (BitVec.ofNat 4 k) b) (k + 1)
@[simp] theorem State.setRegs_fault (s : State) (k : Nat) (bs : List Byte) : (s.setRegs k bs).fault = s.fault := by
  induction bs generalizing s k with
  | nil => rfl
  | cons b bs ih => simpa [State.setRegs] using ih (s.setReg (BitVec.ofNat 4 k) b) (k + 1)
@[simp] theorem State.setRegs_accI (s : State) (k : Nat) (bs : List Byte) : (s.setRegs k bs).accI = s.accI := by
  induction bs generalizing s k with
  | nil => rfl
  | cons b bs ih => simpa [State.setRegs] using ih (s.setReg (BitVec.ofNat 4 k) b) (k + 1)
@[simp] theorem State.setRegs_accT (s : State) (k : Nat) (bs : List Byte) : (s.setRegs k bs).accT = s.accT := by
  induction bs generalizing s k with
  | nil => rfl
  | cons b bs ih => simpa [State.setRegs] using ih (s.setReg (BitVec.ofNat 4 k) b) (k + 1)
@[simp] theorem State.setRegs_draws (s : State) (k : Nat) (bs : List Byte) : (s.setRegs k bs).draws = s.draws := by
  induction bs generalizing s k with
  | nil => rfl
  | cons b bs ih => simpa [State.setRegs] using ih (s.setReg (BitVec.ofNat 4 k) b) (k + 1)
@[simp] theorem State.setRegs_events (s : State) (k : Nat) (bs : List Byte) : (s.setRegs k bs).events = s.events := by
  induction bs generalizing s k with
  | nil => rfl
  | cons b bs ih => simpa [State.setRegs] using ih (s.setReg (BitVec.ofNat 4 k) b) (k + 1)
@[simp] theorem State.setRegs_subscribers (s : State) (k : Nat) (bs : List Byte) : (s.setRegs k bs).subscribers = s.subscribers := by
  induction bs generalizing s k with
  | nil => rfl
  | cons b bs ih => simpa [State.setRegs] using ih (s.setReg (BitVec.ofNat 4 k) b) (k + 1)
@[simp] theorem State.setRegs_rndNo (s : State) (k : Nat) (bs : List Byte) : (s.setRegs k bs).rndNo = s.rndNo := by
  induction bs generalizing s k with
  | nil => rfl
  | cons b bs ih => simpa [State.setRegs] using ih (s.setReg (BitVec.ofNat 4 k) b) (k + 1)
@[simp] theorem State.setRegs_calls (s : State) (k : Nat) (bs : List Byte) : (s.setRegs k bs).calls = s.calls := by
  induction bs generalizing s k with
  | nil => rfl
  | cons b bs ih => simpa [State.setRegs] using ih (s.setReg (BitVec.ofNat 4 k) b) (k + 1)
@[simp] theorem State.skipIf_mem (s : State) (test : Bool) : (s.skipIf test).mem = s.mem := by
  cases test <;> rfl
@[simp] theorem State.skipIf_v (s : State) (test : Bool) : (s.skipIf test).v = s.v := by
  cases test <;> rfl
@[simp] theorem State.skipIf_pc (s : State) (test : Bool) : (s.skipIf test).pc = if test then s.pc + 2#16 else s.pc := by
  cases test <;> rfl
@[simp] theorem State.skipIf_i (s : State) (test : Bool) : (s.skipIf test).i = s.i := by
  cases test <;> rfl
@[simp] theorem State.skipIf_stack (s : State) (test : Bool) : (s.skipIf test).stack = s.stack := by
  cases test <;> rfl
@[simp] theorem State.skipIf_sp (s : State) (test : Bool) : (s.skipIf test).sp = s.sp := by
  cases test <;> rfl
@[simp] theorem State.skipIf_dt (s : State) (test : Bool) : (s.skipIf test).dt = s.dt := by
  cases test <;> rfl
@[simp] theorem State.skipIf_st (s : State) (test : Bool) : (s.skipIf test).st = s.st := by
  cases test <;> rfl
@[simp] theorem State.skipIf_keypad (s : State) (test : Bool) : (s.skipIf test).keypad = s.keypad := by
  cases test <;> rfl
@[simp] theorem State.skipIf_waiting (s : State) (test : Bool) : (s.skipIf test).waiting = s.waiting := by
  cases test <;> rfl
@[simp] theorem State.skipIf_fb (s : State) (test : Bool) : (s.skipIf test).fb = s.fb := by
  cases test <;> rfl
@[simp] theorem State.skipIf_cfg (s : State) (test : Bool) : (s.skipIf test).cfg = s.cfg := by
  cases test <;> rfl
@[simp] theorem State.skipIf_fault (s : State) (test : Bool) : (s.skipIf test).fault = s.fault := by
  cases test <;> rfl
@[simp] theorem State.skipIf_accI (s : State) (test : Bool) : (s.skipIf test).accI = s.accI := by
  cases test <;> rfl
@[simp] theorem State.skipIf_accT (s : State) (test : Bool) : (s.skipIf test).accT = s.accT := by
  cases test <;> rfl
@[simp] theorem State.skipIf_draws (s : State) (test : Bool) : (s.skipIf test).draws = s.draws := by
  cases test <;> rfl
@[simp] theorem State.skipIf_events (s : State) (test : Bool) : (s.skipIf test).events = s.events := by
  cases test <;> rfl
@[simp] theorem State.skipIf_subscribers (s : State) (test : Bool) : (s.skipIf test).subscribers = s.subscribers := by
  cases test <;> rfl
@[simp] theorem State.skipIf_rndNo (s : State) (test : Bool) : (s.skipIf test).rndNo = s.rndNo := by
  cases test <;> rfl
@[simp] theorem State.skipIf_calls (s : State) (test : Bool) : (s.skipIf test).calls = s.calls := by
  cases test <;> rfl

/-! ### Registers -/

/-- A register written reads back, and every other one is as before. -/
theorem State.reg_setReg (s : State) (x y : Nibble) (b : Byte) :
    (s.setReg x b).reg y = if y = x then b else s.reg y := by
  simp only [State.reg, State.setReg, Vector.getElem_set]
  by_cases h : y = x
  · simp [h]
  · have : x.toNat ≠ y.toNat := fun e => h (BitVec.eq_of_toNat_eq e.symm)
    simp [h, this]

@[simp] theorem State.reg_setReg_self (s : State) (x : Nibble) (b : Byte) : (s.setReg x b).reg x = b := by
  simp [State.reg_setReg]

theorem State.reg_setReg_ne (s : State) {x y : Nibble} (b : Byte) (h : y ≠ x) : (s.setReg x b).reg y = s.reg y := by
  simp [State.reg_setReg, h]

/-- VF holds the flag, every other register is as before. -/
theorem State.reg_setFlag (s : State) (y : Nibble) (flag : Bool) :
    (s.setFlag flag).reg y = if y = regF then flagByte flag else s.reg y := State.reg_setReg s regF y _

/-- The flag is written last: VF holds it whatever x is (R42). -/
theorem State.reg_setResult (s : State) (x y : Nibble) (b : Byte) (flag : Bool) :
    (s.setResult x b flag).reg y = if y = regF then flagByte flag else if y = x then b else s.reg y := by
  simp [State.setResult, State.reg_setFlag, State.reg_setReg]

@[simp] theorem State.jump_reg (s : State) (target : Word) (y : Nibble) : (s.jump target).reg y = s.reg y := rfl
@[simp] theorem State.preAdvance_reg (s : State) (y : Nibble) : s.preAdvance.reg y = s.reg y := rfl
@[simp] theorem State.storeBytes_reg (s : State) (a : Nat) (bs : List Byte) (y : Nibble) : (s.storeBytes a bs).reg y = s.reg y := rfl
@[simp] theorem State.takeFault_reg (s : State) (cause : Cause) (op : Word) (info : Int) (y : Nibble) : (s.takeFault cause op info).reg y = s.reg y := rfl
@[simp] theorem State.notifyDraw_reg (s : State) (y : Nibble) : s.notifyDraw.reg y = s.reg y := rfl
@[simp] theorem State.skipIf_reg (s : State) (test : Bool) (y : Nibble) : (s.skipIf test).reg y = s.reg y := by
  cases test <;> rfl

end Sys2Proof.Machine
end

