-- ==== Sys2Proof/Laws/Frame.lean ====
section
/-! SUPPORT. What each shared operation leaves alone, in the terms of `OnlyChanges`; a meaning's frame is these chained
by `OnlyChanges.trans` and weakened by `OnlyChanges.mono`. -/

namespace Sys2Proof.Machine

theorem OnlyChanges.refl (s : State) (P : Part → Prop) : OnlyChanges P s s := fun p _ => by cases p <;> rfl

theorem OnlyChanges.mono {P Q : Part → Prop} {s t : State} (h : OnlyChanges P s t) (hPQ : ∀ p, P p → Q p) :
    OnlyChanges Q s t := fun p hp => h p fun hP => hp (hPQ p hP)

theorem Part.Same.trans {s t u : State} {p : Part} (h : Part.Same s t p) (h' : Part.Same t u p) : Part.Same s u p := by
  cases p <;> exact Eq.trans h' h

/-- Two changes in a row change only what one of them changes. -/
theorem OnlyChanges.trans {P Q : Part → Prop} {s t u : State} (h : OnlyChanges P s t) (h' : OnlyChanges Q t u) :
    OnlyChanges (fun p => P p ∨ Q p) s u :=
  fun p hp => (h p fun hP => hp (.inl hP)).trans (h' p fun hQ => hp (.inr hQ))

theorem jump_onlyChanges (s : State) (target : Word) : OnlyChanges (· = .pc) s (s.jump target) := fun p hp => by
  cases p <;> first | exact absurd rfl hp | rfl

theorem preAdvance_onlyChanges (s : State) : OnlyChanges (· = .pc) s s.preAdvance := jump_onlyChanges s s.postPc

theorem skipIf_onlyChanges (s : State) (test : Bool) : OnlyChanges (· = .pc) s (s.skipIf test) := by
  cases test
  · exact OnlyChanges.refl s _
  · exact jump_onlyChanges s _

theorem setReg_onlyChanges (s : State) (x : Nibble) (b : Byte) : OnlyChanges (· = .reg x) s (s.setReg x b) :=
  fun p hp => by
    cases p with
    | reg y => exact State.reg_setReg_ne s b fun e => hp (by rw [e])
    | _ => rfl

theorem setFlag_onlyChanges (s : State) (flag : Bool) : OnlyChanges (· = .reg regF) s (s.setFlag flag) :=
  setReg_onlyChanges s regF _

theorem setResult_onlyChanges (s : State) (x : Nibble) (b : Byte) (flag : Bool) :
    OnlyChanges (fun p => p = .reg x ∨ p = .reg regF) s (s.setResult x b flag) :=
  (setReg_onlyChanges s x b).trans (setFlag_onlyChanges _ flag)

/-- Bytes stored from `a` on change those bytes and nothing else. -/
theorem storeBytes_onlyChanges (s : State) (a : Nat) (bs : List Byte) :
    OnlyChanges (fun p => ∃ k, k < bs.length ∧ p = .byte (a + k)) s (s.storeBytes a bs) := fun p hp => by
  cases p with
  | byte a' =>
    refine Memory.read_writeBytes_outside s.mem a bs a' ?_
    by_contra hin
    exact hp ⟨a' - a, by omega, by congr 1; omega⟩
  | _ => rfl

/-- Registers written from number `k` on are those registers and nothing else. -/
theorem setRegs_onlyChanges (s : State) (k : Nat) (bs : List Byte) :
    OnlyChanges (fun p => ∃ j, j < bs.length ∧ p = .reg (BitVec.ofNat 4 (k + j))) s (s.setRegs k bs) := by
  induction bs generalizing s k with
  | nil => exact OnlyChanges.refl s _
  | cons b bs ih =>
    refine ((setReg_onlyChanges s (BitVec.ofNat 4 k) b).trans (ih _ (k + 1))).mono ?_
    rintro p (rfl | ⟨j, hj, rfl⟩)
    · exact ⟨0, by simp, by simp⟩
    · exact ⟨j + 1, by simpa using hj, by congr 2; omega⟩

theorem takeFault_onlyChanges (s : State) (cause : Cause) (op : Word) (info : Int) :
    OnlyChanges (· = .fault) s (s.takeFault cause op info) := fun p hp => by
  cases p <;> first | exact absurd rfl hp | rfl

/-- Taking a fault is a fault entry as R262 and R263 describe it. -/
theorem takeFault_faultsWith (s : State) (cause : Cause) (op : Word) (info : Int) :
    FaultsWith cause op info s (s.takeFault cause op info) :=
  ⟨rfl, rfl, rfl, rfl, rfl, takeFault_onlyChanges s cause op info⟩

theorem notifyDraw_onlyChanges (s : State) : OnlyChanges (fun p => p = .draws ∨ p = .events) s s.notifyDraw :=
  fun p hp => by
    cases p <;> first | exact absurd (.inl rfl) hp | exact absurd (.inr rfl) hp | rfl

end Sys2Proof.Machine
end

