-- ==== Sys2Proof/Laws/Ops.lean ====
section
/-! SUPPORT. What the shared operations over the return stack, the registers V0 to Vx, the operands and the
framebuffer do, each said once. -/

namespace Sys2Proof.Machine

/-! ### The return stack -/

/-- A push raises SP by one, writes the entry SP then names, and changes nothing else (R134, R135). -/
theorem push_spec {s t : State} {ret : Word} (h : s.push ret = some t) :
    ∃ k : Fin Config.stackDepth, t.sp = some k ∧ (k.val : Int) = s.spInt + 1 ∧ t.stack[k.val]'k.isLt = ret ∧
      OnlyChanges (fun p => p = .sp ∨ p = .stackEntry k) s t := by
  unfold State.push at h
  split at h
  · cases h
  · next k hk =>
    injection h with h
    subst h
    refine ⟨k, rfl, ?_, by simp, fun p hp => ?_⟩
    · unfold nextSlot at hk
      unfold State.spInt
      split at hk
      · cases hk; simp
      · split at hk
        · cases hk; simp
        · cases hk
    · cases p with
      | stackEntry j =>
        have hj : k.val ≠ j.val := fun e => hp (.inr (by rw [Fin.ext e]))
        simp [Part.Same, hj]
      | sp => exact absurd (.inl rfl) hp
      | _ => rfl

/-- A push is turned away exactly when SP = 15. -/
theorem push_eq_none_iff (s : State) (ret : Word) : s.push ret = none ↔ s.spInt = 15 := by
  unfold State.push nextSlot State.spInt
  cases s.sp with
  | none => simp
  | some k =>
    have hk : k.val < 16 := k.isLt
    by_cases h : k.val + 1 < 16 <;> simp [Config.stackDepth, h] <;> omega

/-- A pop gives the entry SP names, lowers SP by one, and changes nothing else (R131). -/
theorem pop_spec {s t : State} {ret : Word} (h : s.pop = some (ret, t)) :
    ∃ k : Fin Config.stackDepth, s.sp = some k ∧ ret = s.stack[k.val]'k.isLt ∧ t.spInt = s.spInt - 1 ∧
      OnlyChanges (· = .sp) s t := by
  unfold State.pop at h
  split at h
  · cases h
  · next k hk =>
    simp only [Option.some.injEq, Prod.mk.injEq] at h
    obtain ⟨rfl, rfl⟩ := h
    refine ⟨k, hk, rfl, ?_, fun p hp => ?_⟩
    · simp only [State.spInt, hk, slotBelow]
      by_cases h0 : k.val = 0
      · simp [h0]
      · simp [h0]; omega
    · cases p <;> first | exact absurd rfl hp | rfl

/-- A pop is turned away exactly when SP = -1. -/
theorem pop_eq_none_iff (s : State) : s.pop = none ↔ s.spInt = -1 := by
  unfold State.pop State.spInt
  cases s.sp with
  | none => simp
  | some k => simp

/-! ### Several registers -/

/-- Registers written from number `k` on, as far as register 15: each reads back, every other one is as before. -/
theorem reg_setRegs (s : State) (k : Nat) (bs : List Byte) (y : Nibble) (h : k + bs.length ≤ 16) :
    (s.setRegs k bs).reg y =
      if hy : k ≤ y.toNat ∧ y.toNat < k + bs.length then bs[y.toNat - k]'(by omega) else s.reg y := by
  induction bs generalizing s k with
  | nil => simp [State.setRegs]
  | cons b bs ih =>
    simp only [List.length_cons] at h
    rw [State.setRegs, ih _ _ (by omega)]
    by_cases h0 : y.toNat = k
    · have e : y = BitVec.ofNat 4 k := BitVec.eq_of_toNat_eq (by rw [BitVec.toNat_ofNat]; omega)
      rw [dif_neg (by omega), dif_pos (by simp; omega), ← e, State.reg_setReg_self]
      simp [h0]
    · have e : y ≠ BitVec.ofNat 4 k := fun e => h0 (by rw [e, BitVec.toNat_ofNat]; omega)
      by_cases h1 : k + 1 ≤ y.toNat ∧ y.toNat < k + 1 + bs.length
      · rw [dif_pos h1, dif_pos (by simp; omega)]
        have : y.toNat - k = (y.toNat - (k + 1)) + 1 := by omega
        simp [this]
      · rw [dif_neg h1, dif_neg (by simp; omega), State.reg_setReg_ne _ _ e]

@[simp] theorem length_regsTo (s : State) (x : Nibble) : (s.regsTo x).length = x.toNat + 1 := by
  simp [State.regsTo]

theorem getElem_regsTo (s : State) (x : Nibble) (k : Nat) (h : k < (s.regsTo x).length) :
    (s.regsTo x)[k] = s.reg (BitVec.ofNat 4 k) := by
  simp [State.regsTo]

/-! ### Operands -/

theorem inBounds_iff (a k : Nat) : inBounds a k = true ↔ k = 0 ∨ a + k ≤ 4096 := by simp [inBounds]

/-- The bounds check fails exactly when some accessed address is at or above MEM_SIZE, and INFO is then the lowest
such address (R264). -/
theorem not_inBounds_spec {a k : Nat} (h : inBounds a k = false) :
    ∃ j, j < k ∧ 4096 ≤ a + j ∧ oobInfo a = Int.ofNat (a + j) ∧ ∀ i, i < j → a + i < 4096 := by
  have hm : Config.memSize = 4096 := rfl
  simp only [inBounds, Bool.or_eq_false_iff, decide_eq_false_iff_not] at h
  refine ⟨4096 - a, by omega, by omega, ?_, fun i hi => by omega⟩
  simp only [oobInfo, hm]
  congr 1
  omega

theorem toNat_flagByte (b : Bool) : (flagByte b).toNat = if b then 1 else 0 := by cases b <;> rfl

/-- The scan keeps the highest pressed key of its range, and the value before it where none is pressed (R235). -/
theorem scanKeys_spec (keypad : Word) (found : Byte) (k count : Nat) :
    (∃ j, k ≤ j ∧ j < k + count ∧ keypad.getLsbD j = true ∧ (∀ i, j < i → i < k + count → keypad.getLsbD i = false) ∧
      scanKeys keypad found k count = BitVec.ofNat 8 j) ∨
    ((∀ i, k ≤ i → i < k + count → keypad.getLsbD i = false) ∧ scanKeys keypad found k count = found) := by
  induction count generalizing k found with
  | zero => exact .inr ⟨fun i _ _ => by omega, rfl⟩
  | succ count ih =>
    rw [scanKeys]
    rcases ih (if keypad.getLsbD k then BitVec.ofNat 8 k else found) (k + 1) with ⟨j, h1, h2, h3, h4, h5⟩ | ⟨h1, h2⟩
    · exact .inl ⟨j, by omega, by omega, h3, fun i hi hi' => h4 i hi (by omega), h5⟩
    · by_cases hk : keypad.getLsbD k = true
      · exact .inl ⟨k, le_rfl, by omega, hk, fun i hi hi' => h1 i (by omega) (by omega), by rw [h2, if_pos hk]⟩
      · refine .inr ⟨fun i hi hi' => ?_, by rw [h2, if_neg hk]⟩
        rcases Nat.eq_or_lt_of_le hi with rfl | hlt
        · simpa using hk
        · exact h1 i hlt (by omega)

/-! ### The framebuffer -/

/-- Flipping one pixel changes that pixel alone. -/
theorem pixel_flip (fb : Frame) (r r' : Fin Config.screenH) (c c' : Fin Config.screenW) :
    (fb.flip r c).pixel r' c' = if r' = r ∧ c' = c then !fb.pixel r c else fb.pixel r' c' := by
  unfold Frame.flip
  unfold Frame.pixel
  by_cases hr : r' = r
  · subst hr
    by_cases hc : c' = c
    · subst hc; simp
    · have : c.val ≠ c'.val := fun e => hc (Fin.ext e.symm)
      simp [hc, this]
  · have : r.val ≠ r'.val := fun e => hr (Fin.ext e.symm)
    simp [hr, this]

theorem pixel_black (r : Fin Config.screenH) (c : Fin Config.screenW) : Frame.black.pixel r c = false := by
  simp [Frame.pixel, Frame.black]

/-- Plotting one bit flips its pixel and records a cleared one. -/
theorem plot_spec (cv : Canvas) (r r' : Fin Config.screenH) (c c' : Fin Config.screenW) :
    ((cv.plot r c).fb.pixel r' c' = if r' = r ∧ c' = c then !cv.fb.pixel r c else cv.fb.pixel r' c') ∧
    (cv.plot r c).hit = (cv.hit || cv.fb.pixel r c) := ⟨pixel_flip cv.fb r r' c c', rfl⟩

/-- Frames with the same pixels are the same frame. -/
theorem frame_ext {f g : Frame} (h : ∀ r c, f.pixel r c = g.pixel r c) : f = g := by
  apply Vector.ext
  intro i hi
  apply Vector.ext
  intro j hj
  exact h ⟨i, hi⟩ ⟨j, hj⟩

end Sys2Proof.Machine
end

