-- ==== Sys2Proof/Laws/PerInstr.lean ====
section
/-! SUPPORT. One statement about every instruction as syntax, one lemma per constructor: a well-formed instruction's
word lies on its own row of the opcode map, and a no-op's word on none (spec/30_encoding.md R87, R96). -/

namespace Sys2Proof.Laws

/-- The encoded word belongs to the instruction's own row of the opcode map; a no-op's belongs to no row. -/
def OnRow.Statement (i : Instr) : Prop :=
  i.WellFormed → match i.row with
    | some r => r.Matches (encode i)
    | none => ∀ r ∈ opcodeMap, ¬ r.Matches (encode i)

/-- A word of format A under the mask of its top nibble. -/
theorem addr_on_row (t : Nibble) (nnn : Addr12) : (t ++ nnn : Word) &&& 0xF000#16 = t ++ 0x000#12 := by
  apply BitVec.eq_of_getLsbD_eq
  intro i hi
  rw [BitVec.getLsbD_and, bit_addr, bit_addr]
  interval_cases i <;> simp

/-- A word of format XK under the mask of its top nibble. -/
theorem byte_on_row (t x : Nibble) (kk : Byte) : (t ++ x ++ kk : Word) &&& 0xF000#16 = t ++ 0x000#12 := by
  apply BitVec.eq_of_getLsbD_eq
  intro i hi
  rw [BitVec.getLsbD_and, bit_byte, bit_addr]
  interval_cases i <;> simp

/-- A word of format XS under the mask of its top nibble and its byte sub-opcode. -/
theorem sub_on_row (t x : Nibble) (kk : Byte) : (t ++ x ++ kk : Word) &&& 0xF0FF#16 = t ++ 0x0#4 ++ kk := by
  apply BitVec.eq_of_getLsbD_eq
  intro i hi
  rw [BitVec.getLsbD_and, bit_byte, bit_byte]
  interval_cases i <;> simp

/-- A word of format XY under the mask of its top nibble and its sub-opcode. -/
theorem regs_on_row (t x y n : Nibble) : (t ++ x ++ y ++ n : Word) &&& 0xF00F#16 = t ++ 0x0#4 ++ 0x0#4 ++ n := by
  apply BitVec.eq_of_getLsbD_eq
  intro i hi
  rw [BitVec.getLsbD_and, bit_regs, bit_regs]
  interval_cases i <;> simp

/-- A word of format XYN under the mask of its top nibble. -/
theorem draw_on_row (t x y n : Nibble) : (t ++ x ++ y ++ n : Word) &&& 0xF000#16 = t ++ 0x000#12 := by
  apply BitVec.eq_of_getLsbD_eq
  intro i hi
  rw [BitVec.getLsbD_and, bit_regs, bit_addr]
  interval_cases i <;> simp

theorem OnRow.cls : OnRow.Statement .cls := fun _ => rfl
theorem OnRow.ret : OnRow.Statement .ret := fun _ => rfl
theorem OnRow.jp (nnn : Addr12) : OnRow.Statement (.jp nnn) := fun _ => addr_on_row 0x1 nnn
theorem OnRow.call (nnn : Addr12) : OnRow.Statement (.call nnn) := fun _ => addr_on_row 0x2 nnn
theorem OnRow.seByte (x : Nibble) (kk : Byte) : OnRow.Statement (.seByte x kk) := fun _ => byte_on_row 0x3 x kk
theorem OnRow.sneByte (x : Nibble) (kk : Byte) : OnRow.Statement (.sneByte x kk) := fun _ => byte_on_row 0x4 x kk
theorem OnRow.seReg (x y : Nibble) : OnRow.Statement (.seReg x y) := fun _ => regs_on_row 0x5 x y 0x0
theorem OnRow.ldByte (x : Nibble) (kk : Byte) : OnRow.Statement (.ldByte x kk) := fun _ => byte_on_row 0x6 x kk
theorem OnRow.addByte (x : Nibble) (kk : Byte) : OnRow.Statement (.addByte x kk) := fun _ => byte_on_row 0x7 x kk
theorem OnRow.ldReg (x y : Nibble) : OnRow.Statement (.ldReg x y) := fun _ => regs_on_row 0x8 x y 0x0
theorem OnRow.orReg (x y : Nibble) : OnRow.Statement (.orReg x y) := fun _ => regs_on_row 0x8 x y 0x1
theorem OnRow.andReg (x y : Nibble) : OnRow.Statement (.andReg x y) := fun _ => regs_on_row 0x8 x y 0x2
theorem OnRow.xorReg (x y : Nibble) : OnRow.Statement (.xorReg x y) := fun _ => regs_on_row 0x8 x y 0x3
theorem OnRow.addReg (x y : Nibble) : OnRow.Statement (.addReg x y) := fun _ => regs_on_row 0x8 x y 0x4
theorem OnRow.subReg (x y : Nibble) : OnRow.Statement (.subReg x y) := fun _ => regs_on_row 0x8 x y 0x5
theorem OnRow.shrReg (x y : Nibble) : OnRow.Statement (.shrReg x y) := fun _ => regs_on_row 0x8 x y 0x6
theorem OnRow.subnReg (x y : Nibble) : OnRow.Statement (.subnReg x y) := fun _ => regs_on_row 0x8 x y 0x7
theorem OnRow.shlReg (x y : Nibble) : OnRow.Statement (.shlReg x y) := fun _ => regs_on_row 0x8 x y 0xe
theorem OnRow.sneReg (x y : Nibble) : OnRow.Statement (.sneReg x y) := fun _ => regs_on_row 0x9 x y 0x0
theorem OnRow.ldI (nnn : Addr12) : OnRow.Statement (.ldI nnn) := fun _ => addr_on_row 0xa nnn
theorem OnRow.jpV0 (nnn : Addr12) : OnRow.Statement (.jpV0 nnn) := fun _ => addr_on_row 0xb nnn
theorem OnRow.rnd (x : Nibble) (kk : Byte) : OnRow.Statement (.rnd x kk) := fun _ => byte_on_row 0xc x kk
theorem OnRow.drw (x y n : Nibble) : OnRow.Statement (.drw x y n) := fun _ => draw_on_row 0xd x y n
theorem OnRow.skp (x : Nibble) : OnRow.Statement (.skp x) := fun _ => sub_on_row 0xe x 0x9e
theorem OnRow.sknp (x : Nibble) : OnRow.Statement (.sknp x) := fun _ => sub_on_row 0xe x 0xa1
theorem OnRow.ldVxDt (x : Nibble) : OnRow.Statement (.ldVxDt x) := fun _ => sub_on_row 0xf x 0x7
theorem OnRow.ldVxK (x : Nibble) : OnRow.Statement (.ldVxK x) := fun _ => sub_on_row 0xf x 0xa
theorem OnRow.ldDtVx (x : Nibble) : OnRow.Statement (.ldDtVx x) := fun _ => sub_on_row 0xf x 0x15
theorem OnRow.ldStVx (x : Nibble) : OnRow.Statement (.ldStVx x) := fun _ => sub_on_row 0xf x 0x18
theorem OnRow.addIVx (x : Nibble) : OnRow.Statement (.addIVx x) := fun _ => sub_on_row 0xf x 0x1e
theorem OnRow.ldFVx (x : Nibble) : OnRow.Statement (.ldFVx x) := fun _ => sub_on_row 0xf x 0x29
theorem OnRow.ldBVx (x : Nibble) : OnRow.Statement (.ldBVx x) := fun _ => sub_on_row 0xf x 0x33
theorem OnRow.storeRegs (x : Nibble) : OnRow.Statement (.storeRegs x) := fun _ => sub_on_row 0xf x 0x55
theorem OnRow.loadRegs (x : Nibble) : OnRow.Statement (.loadRegs x) := fun _ => sub_on_row 0xf x 0x65
theorem OnRow.noop (w : Word) : OnRow.Statement (.noop w) := fun h r hr => by
  have := List.all_eq_true.1 h r hr
  simpa [encode] using this

end Sys2Proof.Laws
end

