-- ==== Sys2Proof/Tests/Slice0.lean ====
section
/-! SUPPORT. Small tests of decoding, of one step at a time, and of well-formedness, and for each statement with
hypotheses the witnesses that meet them. Expected values come from spec/95_test_vectors.md (the id stands in each
comment) or from the encodings of spec/30_encoding.md R87. -/

namespace Sys2Proof.Tests

open Sys2Proof Sys2Proof.Machine

/-! ### Well-formedness -/

/-- A no-op may not hold a word of the opcode map: one of each kind of row, an exact word, a family, a low nibble
and a low byte (R88-R93). -/
theorem test_ill_formed_noop :
    (Instr.noop 0x00E0#16).wellFormed = false ∧ (Instr.noop 0x1ABC#16).wellFormed = false ∧
    (Instr.noop 0x8AB4#16).wellFormed = false ∧ (Instr.noop 0xFA65#16).wellFormed = false := by decide

/-- V-ENC-5 to V-ENC-10: words of no row. -/
theorem test_well_formed_noop :
    (Instr.noop 0x01E0#16).WellFormed ∧ (Instr.noop 0x5121#16).WellFormed ∧ (Instr.noop 0x8128#16).WellFormed ∧
    (Instr.noop 0xE19F#16).WellFormed ∧ (Instr.noop 0xF1FF#16).WellFormed := by decide

/-! ### Decoding: a word of every constructor, written out from the encodings of R87 with x = A, y = B -/

theorem test_decode_exact_words :
    decodeWord 0b0000000011100000#16 = .cls ∧ decodeWord 0b0000000011101110#16 = .ret := by decide

theorem test_decode_addresses :
    decodeWord 0b0001101010111100#16 = .jp 0xABC#12 ∧ decodeWord 0b0010101010111100#16 = .call 0xABC#12 ∧
    decodeWord 0b1010101010111100#16 = .ldI 0xABC#12 ∧ decodeWord 0b1011101010111100#16 = .jpV0 0xABC#12 := by decide

theorem test_decode_byte_operands :
    decodeWord 0b0011101001011100#16 = .seByte 0xA#4 0x5C#8 ∧ decodeWord 0b0100101001011100#16 = .sneByte 0xA#4 0x5C#8 ∧
    decodeWord 0b0110101001011100#16 = .ldByte 0xA#4 0x5C#8 ∧ decodeWord 0b0111101001011100#16 = .addByte 0xA#4 0x5C#8 ∧
    decodeWord 0b1100101001011100#16 = .rnd 0xA#4 0x5C#8 := by decide

theorem test_decode_register_pairs :
    decodeWord 0b0101101010110000#16 = .seReg 0xA#4 0xB#4 ∧ decodeWord 0b1001101010110000#16 = .sneReg 0xA#4 0xB#4 ∧
    decodeWord 0b1000101010110000#16 = .ldReg 0xA#4 0xB#4 ∧ decodeWord 0b1000101010110001#16 = .orReg 0xA#4 0xB#4 ∧
    decodeWord 0b1000101010110010#16 = .andReg 0xA#4 0xB#4 ∧ decodeWord 0b1000101010110011#16 = .xorReg 0xA#4 0xB#4 ∧
    decodeWord 0b1000101010110100#16 = .addReg 0xA#4 0xB#4 ∧ decodeWord 0b1000101010110101#16 = .subReg 0xA#4 0xB#4 ∧
    decodeWord 0b1000101010110110#16 = .shrReg 0xA#4 0xB#4 ∧ decodeWord 0b1000101010110111#16 = .subnReg 0xA#4 0xB#4 ∧
    decodeWord 0b1000101010111110#16 = .shlReg 0xA#4 0xB#4 := by decide

theorem test_decode_draw : decodeWord 0b1101101010110111#16 = .drw 0xA#4 0xB#4 0x7#4 := by decide

theorem test_decode_single_register :
    decodeWord 0b1110101010011110#16 = .skp 0xA#4 ∧ decodeWord 0b1110101010100001#16 = .sknp 0xA#4 ∧
    decodeWord 0b1111101000000111#16 = .ldVxDt 0xA#4 ∧ decodeWord 0b1111101000001010#16 = .ldVxK 0xA#4 ∧
    decodeWord 0b1111101000010101#16 = .ldDtVx 0xA#4 ∧ decodeWord 0b1111101000011000#16 = .ldStVx 0xA#4 ∧
    decodeWord 0b1111101000011110#16 = .addIVx 0xA#4 ∧ decodeWord 0b1111101000101001#16 = .ldFVx 0xA#4 ∧
    decodeWord 0b1111101000110011#16 = .ldBVx 0xA#4 ∧ decodeWord 0b1111101001010101#16 = .storeRegs 0xA#4 ∧
    decodeWord 0b1111101001100101#16 = .loadRegs 0xA#4 := by decide

/-- V-ENC-4 to V-ENC-10. -/
theorem test_decode_noop :
    decodeWord 0x0000#16 = .noop 0x0000#16 ∧ decodeWord 0x01E0#16 = .noop 0x01E0#16 ∧
    decodeWord 0x0FEE#16 = .noop 0x0FEE#16 ∧ decodeWord 0x9121#16 = .noop 0x9121#16 ∧
    decodeWord 0x812F#16 = .noop 0x812F#16 ∧ decodeWord 0xF100#16 = .noop 0xF100#16 := by decide

/-- A sequence too short for an instruction is refused by name (R80). -/
theorem test_decode_truncated : decodeBytes [0x12#8] = .error .truncated := by decide

/-- The word's bits as the opcode table numbers them. -/
theorem test_decode_table_word : decodeTableWord 16 0x8AB4 = some (.addReg 0xA#4 0xB#4) := by decide

/-! ### Memory -/

/-- Writing what an unlisted address reads as lists nothing; another value is listed in its place. -/
theorem test_memory_canonical :
    Memory.write [] 0x300 0x00#8 = [] ∧ Memory.write [] 0x000 0xF0#8 = [] ∧
    Memory.write [(0x301, 5#8)] 0x300 7#8 = [(0x300, 7#8), (0x301, 5#8)] ∧
    Memory.write [(0x300, 7#8)] 0x300 0x00#8 = [] := by decide

/-- Glyphs E and F of the FONT table of R40, at 0x046 to 0x04F, and the zero byte after them (R44). -/
theorem test_font_glyphs :
    State.reset.mem.readBytes 0x046 11 = [0xF0#8, 0x80#8, 0xF0#8, 0x80#8, 0x80#8] ++
      [0xF0#8, 0x80#8, 0xF0#8, 0x80#8, 0xF0#8] ++ [0x00#8] := by decide

/-! ### One step at a time -/

/-- The step of an instruction placed at 0x200 in a state, and a check of the state it leaves. -/
def runs (s : State) (op : Word) (check : State → Bool) : Bool :=
  match step (s.withFetchWord 16 op.toNat) with
  | .next t => check t
  | _ => false

/-- The state after reset with some registers set. -/
def regs (vs : List (Nibble × Byte)) : State := vs.foldl (fun s p => s.setReg p.1 p.2) State.reset

/-- The same with I and some bytes from I on. -/
def sprite (i : Word) (bytes : List Byte) (vs : List (Nibble × Byte)) : State :=
  { regs vs with i := i, mem := Memory.writeBytes [] i.toNat bytes }

/-- The fault registers a step leaves, with the pc. -/
def faultIs (t : State) (cause : Byte) (fop : Word) (info : Int) : Bool :=
  t.fault.faulted && t.fault.cause.code == cause && t.fault.fpc == 0x200#16 && t.fault.fop == fop &&
    t.fault.info == info && t.pc == 0x200#16

/-- V-DSP-1: the pixel goes, one draw event, pc = 0x202. -/
theorem test_cls : runs { State.reset with fb := Frame.black.flip 3 3 } 0x00E0#16
    (fun t => !t.fb.pixel 3 3 && t.draws == 1 && t.pc == 0x202#16) = true := by decide

/-- L1-6: two pixels set, VF = 0, one draw event. -/
theorem test_drw : runs (sprite 0x300#16 [0xC0#8] [(0x0#4, 10#8), (0x1#4, 5#8)]) 0xD011#16
    (fun t => !t.fb.pixel 5 9 && t.fb.pixel 5 10 && t.fb.pixel 5 11 && !t.fb.pixel 5 12 && t.reg 0xF#4 == 0#8 && t.draws == 1) = true := by decide

/-- V-DSP-12: pixel 0 erased, VF = 1, the sprite's 0-bits leave their pixels alone. -/
theorem test_drw_erases : runs { sprite 0x300#16 [0xAA#8] [] with fb := Frame.black.flip 0 0 } 0xD011#16
    (fun t => !t.fb.pixel 0 0 && !t.fb.pixel 0 1 && t.fb.pixel 0 2 && t.fb.pixel 0 6 && !t.fb.pixel 0 7 && t.reg 0xF#4 == 1#8) = true := by decide

/-- V-CTL-2: pc = 0x204, SP = -1, the entry keeps its value. -/
theorem test_ret : runs { State.reset with sp := some 0, stack := State.reset.stack.set 0 0x0204#16 } 0x00EE#16
    (fun t => t.pc == 0x204#16 && t.spInt == -1 && t.stack[0] == 0x0204#16) = true := by decide

/-- L1-5. -/
theorem test_ret_empty : runs State.reset 0x00EE#16 (fun t => faultIs t 1#8 0x00EE#16 (-1)) = true := by decide

/-- V-CTL-4: the 16th frame is legal. -/
theorem test_call : runs { State.reset with sp := some 14 } 0x2300#16
    (fun t => t.spInt == 15 && t.stack[15] == 0x0202#16 && t.pc == 0x300#16) = true := by decide

/-- V-CTL-3. -/
theorem test_call_full : runs { State.reset with sp := some 15 } 0x2300#16
    (fun t => faultIs t 2#8 0x2300#16 15) = true := by decide

/-- V-CTL-5. -/
theorem test_jp : runs State.reset 0x1234#16 (fun t => t.pc == 0x0234#16) = true := by decide

/-- V-CTL-11: the register is V0, not V5. -/
theorem test_jp_v0 : runs (regs [(0x0#4, 0x01#8), (0x5#4, 0x77#8)]) 0xB5FE#16 (fun t => t.pc == 0x05FF#16) = true := by
  decide

/-- V-CTL-10: no wrap. -/
theorem test_jp_v0_high : runs (regs [(0x0#4, 0xFF#8)]) 0xBFFF#16 (fun t => t.pc == 0x10FE#16) = true := by decide

/-- V-CTL-12, V-CTL-13. -/
theorem test_se_byte : runs (regs [(0x1#4, 0x12#8)]) 0x3112#16 (fun t => t.pc == 0x204#16) = true ∧
    runs (regs [(0x1#4, 0x13#8)]) 0x3112#16 (fun t => t.pc == 0x202#16) = true := by decide

/-- V-CTL-15, V-CTL-16. -/
theorem test_sne_byte : runs (regs [(0x1#4, 0x12#8)]) 0x4112#16 (fun t => t.pc == 0x202#16) = true ∧
    runs (regs []) 0x4112#16 (fun t => t.pc == 0x204#16) = true := by decide

/-- V-CTL-17, V-CTL-18. -/
theorem test_se_reg : runs (regs [(0x3#4, 7#8), (0x4#4, 7#8)]) 0x5340#16 (fun t => t.pc == 0x204#16) = true ∧
    runs (regs [(0x3#4, 7#8), (0x4#4, 8#8)]) 0x5340#16 (fun t => t.pc == 0x202#16) = true := by decide

/-- V-CTL-20, V-CTL-21. -/
theorem test_sne_reg : runs (regs [(0x3#4, 7#8), (0x4#4, 8#8)]) 0x9340#16 (fun t => t.pc == 0x204#16) = true ∧
    runs (regs [(0x3#4, 7#8)]) 0x9330#16 (fun t => t.pc == 0x202#16) = true := by decide

/-- V-ENC-7: no skip although V1 = V2. -/
theorem test_noop : runs State.reset 0x5121#16 (fun t => t.pc == 0x202#16) = true := by decide

/-- V-ENC-11: no pre-advance while WAITING. -/
theorem test_noop_waiting : runs { State.reset with waiting := true } 0x0000#16 (fun t => t.pc == 0x200#16) = true := by
  decide

/-- L1-1. -/
theorem test_ld_byte : runs State.reset 0x6A42#16 (fun t => t.reg 0xA#4 == 0x42#8 && t.pc == 0x202#16) = true := by
  decide

/-- L1-2: no flag. -/
theorem test_add_byte_wraps : runs (regs [(0x1#4, 0xFF#8)]) 0x7105#16
    (fun t => t.reg 0x1#4 == 0x04#8 && t.reg 0xF#4 == 0x00#8) = true := by decide

/-- V-ALU-4. -/
theorem test_ld_reg : runs (regs [(0x2#4, 0x33#8)]) 0x8120#16
    (fun t => t.reg 0x1#4 == 0x33#8 && t.reg 0x2#4 == 0x33#8) = true := by decide

/-- V-ALU-5. -/
theorem test_or : runs (regs [(0x1#4, 0x0F#8), (0x2#4, 0xF0#8), (0xF#4, 0x55#8)]) 0x8121#16
    (fun t => t.reg 0x1#4 == 0xFF#8 && t.reg 0xF#4 == 0x55#8) = true := by decide

/-- V-ALU-6. -/
theorem test_and : runs (regs [(0x1#4, 0x3C#8), (0x2#4, 0x0F#8), (0xF#4, 0x55#8)]) 0x8122#16
    (fun t => t.reg 0x1#4 == 0x0C#8 && t.reg 0xF#4 == 0x55#8) = true := by decide

/-- V-ALU-7. -/
theorem test_xor : runs (regs [(0x1#4, 0x3C#8), (0x2#4, 0x0F#8)]) 0x8123#16 (fun t => t.reg 0x1#4 == 0x33#8) = true := by
  decide

/-- V-ALU-9: a sum of exactly 256. -/
theorem test_add_carry : runs (regs [(0x1#4, 128#8), (0x2#4, 128#8)]) 0x8124#16
    (fun t => t.reg 0x1#4 == 0#8 && t.reg 0xF#4 == 1#8) = true := by decide

/-- V-ALU-11: x = F receives the flag. -/
theorem test_add_into_flag : runs (regs [(0xF#4, 200#8), (0x1#4, 100#8)]) 0x8F14#16
    (fun t => t.reg 0xF#4 == 1#8) = true := by decide

/-- L1-4 (a). -/
theorem test_sub_wraps : runs (regs [(0x1#4, 10#8), (0x2#4, 20#8)]) 0x8125#16
    (fun t => t.reg 0x1#4 == 246#8 && t.reg 0xF#4 == 0#8) = true := by decide

/-- V-ALU-14: the comparison is strict. -/
theorem test_sub_equal : runs (regs [(0x1#4, 7#8), (0x2#4, 7#8), (0xF#4, 9#8)]) 0x8125#16
    (fun t => t.reg 0x1#4 == 0#8 && t.reg 0xF#4 == 0#8) = true := by decide

/-- V-ALU-18. -/
theorem test_subn : runs (regs [(0x1#4, 10#8), (0x2#4, 20#8)]) 0x8127#16
    (fun t => t.reg 0x1#4 == 10#8 && t.reg 0xF#4 == 1#8) = true := by decide

/-- V-ALU-21. -/
theorem test_shr_vx : runs (regs [(0x1#4, 0x05#8), (0x2#4, 0x80#8)]) 0x8126#16
    (fun t => t.reg 0x1#4 == 0x02#8 && t.reg 0xF#4 == 1#8 && t.reg 0x2#4 == 0x80#8) = true := by decide

/-- V-ALU-22. -/
theorem test_shr_vy : runs { regs [(0x1#4, 0x05#8), (0x2#4, 0x80#8)] with cfg := ⟨0, true, false⟩ } 0x8126#16
    (fun t => t.reg 0x1#4 == 0x40#8 && t.reg 0xF#4 == 0#8 && t.reg 0x2#4 == 0x80#8) = true := by decide

/-- V-ALU-25. -/
theorem test_shl_vx : runs (regs [(0x1#4, 0x81#8), (0x2#4, 0x01#8)]) 0x812E#16
    (fun t => t.reg 0x1#4 == 0x02#8 && t.reg 0xF#4 == 1#8) = true := by decide

/-- V-ALU-26. -/
theorem test_shl_vy : runs { regs [(0x1#4, 0x81#8), (0x2#4, 0x01#8)] with cfg := ⟨0, false, true⟩ } 0x812E#16
    (fun t => t.reg 0x1#4 == 0x02#8 && t.reg 0xF#4 == 0#8) = true := by decide

/-- V-ALU-31: whatever the draw, kk = 0 gives 0. -/
theorem test_rnd : ∃ t, exec (.rnd 0x3#4 0x00#8) State.reset = .next t ∧ t.reg 0x3#4 = 0#8 ∧ t.pc = 0x202#16 :=
  ⟨_, rfl, BitVec.zero_and, rfl⟩

/-- V-MEM-1. -/
theorem test_ld_i : runs State.reset 0xA2F0#16 (fun t => t.i == 0x02F0#16) = true := by decide

/-- V-MEM-3: the sum wraps, no flag. -/
theorem test_add_i : runs { regs [(0x1#4, 1#8), (0xF#4, 0x33#8)] with i := 0xFFFF#16 } 0xF11E#16
    (fun t => t.i == 0x0000#16 && t.reg 0xF#4 == 0x33#8) = true := by decide

/-- V-MEM-7: no mask. -/
theorem test_ld_f : runs (regs [(0x7#4, 0xFF#8)]) 0xF729#16 (fun t => t.i == 0x04FB#16) = true := by decide

/-- V-MEM-8. -/
theorem test_ld_b : runs { regs [(0x1#4, 254#8)] with i := 0x300#16 } 0xF133#16
    (fun t => t.mem.readBytes 0x300 3 == [2#8, 5#8, 4#8] && t.i == 0x300#16) = true := by decide

/-- V-MEM-12: nothing is written. -/
theorem test_ld_b_oob : runs { regs [(0x1#4, 9#8)] with i := 0x0FFE#16 } 0xF133#16
    (fun t => faultIs t 5#8 0xF133#16 0x1000 && t.mem.readBytes 0xFFE 2 == [0#8, 0#8]) = true := by decide

/-- V-MEM-14. -/
theorem test_store_regs : runs { regs [(0x0#4, 1#8), (0x1#4, 2#8), (0x2#4, 3#8)] with i := 0x300#16 } 0xF255#16
    (fun t => t.mem.readBytes 0x300 4 == [1#8, 2#8, 3#8, 0#8] && t.i == 0x300#16) = true := by decide

/-- V-MEM-17. -/
theorem test_store_regs_oob : runs { State.reset with i := 0x0FF1#16 } 0xFF55#16
    (fun t => faultIs t 5#8 0xFF55#16 0x1000) = true := by decide

/-- V-MEM-19: V3 keeps its value. -/
theorem test_load_regs : runs (sprite 0x300#16 [7#8, 8#8, 9#8, 10#8] [(0x3#4, 0x44#8)]) 0xF265#16
    (fun t => t.regsTo 0x3#4 == [7#8, 8#8, 9#8, 0x44#8] && t.i == 0x300#16) = true := by decide

/-- V-MEM-21. -/
theorem test_load_regs_oob : runs { State.reset with i := 0x0FFE#16 } 0xF265#16
    (fun t => faultIs t 4#8 0xF265#16 0x1000) = true := by decide

/-- V-KEY-7, V-KEY-2. -/
theorem test_skp : runs { regs [(0x1#4, 0xF#8)] with keypad := 0x8000#16 } 0xE19E#16 (fun t => t.pc == 0x204#16) = true ∧
    runs { regs [(0x1#4, 5#8)] with keypad := 0xFFDF#16 } 0xE19E#16 (fun t => t.pc == 0x202#16) = true := by decide

/-- V-KEY-3. -/
theorem test_skp_bad_key : runs (regs [(0x1#4, 0x10#8)]) 0xE19E#16 (fun t => faultIs t 6#8 0xE19E#16 0x10) = true := by
  decide

/-- V-KEY-4, V-KEY-5. -/
theorem test_sknp : runs (regs [(0x1#4, 5#8)]) 0xE1A1#16 (fun t => t.pc == 0x204#16) = true ∧
    runs { regs [(0x1#4, 5#8)] with keypad := 0x0020#16 } 0xE1A1#16 (fun t => t.pc == 0x202#16) = true := by decide

/-- V-KEY-8. -/
theorem test_ld_vx_dt : runs { State.reset with dt := 0x3C#8 } 0xF307#16 (fun t => t.reg 0x3#4 == 0x3C#8) = true := by
  decide

/-- V-KEY-9. -/
theorem test_ld_dt_vx : runs (regs [(0x4#4, 60#8)]) 0xF415#16 (fun t => t.dt == 60#8) = true := by decide

/-- V-KEY-10. -/
theorem test_ld_st_vx : runs (regs [(0x4#4, 2#8)]) 0xF418#16 (fun t => t.st == 2#8 && t.soundActive) = true := by decide

/-- V-KEY-12. -/
theorem test_ld_vx_k_idle : runs { regs [(0x2#4, 0x33#8)] with keypad := 0x0001#16 } 0xF20A#16
    (fun t => t.keypad == 0#16 && t.reg 0x2#4 == 0xFF#8 && t.waiting && t.pc == 0x200#16) = true := by decide

/-- L1-9, step 2: the highest key wins. -/
theorem test_ld_vx_k_waiting : runs { regs [(0x2#4, 0xFF#8)] with keypad := 0x0C00#16, waiting := true } 0xF20A#16
    (fun t => t.reg 0x2#4 == 0x0B#8 && t.waiting && t.pc == 0x200#16) = true := by decide

/-! ### Host operations -/

/-- V-SCH-7: the tick comes before the step. -/
theorem test_execute_order :
    (match execute 1000 { State.reset.withFetchWord 16 0xF307 with cfg := ⟨1000, false, false⟩, dt := 1#8, accT := 15000 } with
      | .next t => t.dt == 0#8 && t.accT == 0 && t.accI == 0 && t.pc == 0x202#16 && t.reg 0x3#4 == 0#8
      | _ => false) = true := by decide

/-- V-SCH-8: ACC_I is kept after a step that faults. -/
theorem test_execute_fault :
    (match execute 1000 { State.reset.withFetchWord 16 0x00EE with cfg := ⟨1000, false, false⟩ } with
      | .next t => faultIs t 1#8 0x00EE#16 (-1) && t.accI == 1000
      | _ => false) = true := by decide

/-- V-RST-3: LOAD writes memory alone. -/
theorem test_load :
    (match serve (.load [0x12#8, 0x00#8]) (regs [(0x3#4, 9#8)]) with
      | .next t => t.mem.readBytes 0x200 2 == [0x12#8, 0x00#8] && t.reg 0x3#4 == 9#8
      | _ => false) = true := by decide

/-- R110, U6: a pixel index outside the screen is a programming error. -/
theorem test_pixel_index :
    State.reset.readPixel 64 0 = .fault (.pixelIndex 64 0) ∧ State.reset.readPixel 63 31 = .next false := ⟨rfl, rfl⟩

/-! ### Witnesses: for each statement with hypotheses, a state and operands that meet them, each clause at a boundary
value of its range -/

/-- A state that has recorded a fault. -/
def faulted : State := State.reset.takeFault .stackUnderflow 0x00EE#16 (-1)

theorem witness_decode_encode : (Instr.noop 0x5121#16).WellFormed ∧ (Instr.loadRegs 0xF#4).WellFormed := by decide

theorem witness_decoder_exact : (Instr.shlReg 0xF#4 0x0#4).WellFormed ∧ encode (.shlReg 0xF#4 0x0#4) = 0x8F0E#16 := by
  decide

theorem witness_opcode_map : (⟨0x8004#16, 0xF00F#16⟩ : OpcodeRow) ∈ opcodeMap ∧
    OpcodeRow.Matches ⟨0x8004#16, 0xF00F#16⟩ 0x8FF4#16 ∧ (∀ r ∈ opcodeMap, ¬ r.Matches 0x8FFF#16) ∧
    decodeWord 0x8FFF#16 = .noop 0x8FFF#16 := by decide

/-- The highest pc an instruction can be fetched at. -/
def atTop : State := { State.reset with pc := 0xFFE#16, mem := Memory.writeBytes [] 0xFFE [0x6A#8, 0x42#8] }

theorem witness_step_runs : atTop.calls = [] ∧ atTop.fault.faulted = false ∧ atTop.pc.toNat + 1 < 4096 ∧
    decodeBytes [atTop.mem.read atTop.pc.toNat, atTop.mem.read (atTop.pc.toNat + 1)] = .ok (.ldByte 0xA#4 0x42#8, []) :=
  ⟨rfl, rfl, by decide, rfl⟩

theorem witness_fetch_word : atTop.fault.faulted = false ∧ atTop.pc.toNat + 1 < 4096 ∧
    (0x6A42#16).toNat = 256 * (atTop.mem.read atTop.pc.toNat).toNat + (atTop.mem.read (atTop.pc.toNat + 1)).toNat := by
  decide

theorem witness_fetch_oob : ({ State.reset with pc := 0xFFF#16 } : State).fault.faulted = false ∧
    4096 ≤ ({ State.reset with pc := 0xFFF#16 } : State).pc.toNat + 1 := by decide

theorem witness_pre_advance : atTop.pc.toNat + 1 < 4096 ∧ ¬ MovesPc (.ldByte 0xA#4 0x42#8) ∧
    ¬ FaultCondition (.ldByte 0xA#4 0x42#8) atTop := ⟨by decide, id, id⟩

/-- The clause of a target whose next fetch faults: 1FFF, the highest target of Bnnn, and a skip from 0xFFE. -/
theorem witness_target_oob :
    (∃ t, exec (.jp 0xFFF#12) State.reset = .next t ∧ 4095 ≤ t.pc.toNat) ∧
    (∃ t, exec (.jpV0 0xFFF#12) (regs [(0x0#4, 0xFF#8)]) = .next t ∧ 4095 ≤ t.pc.toNat) ∧
    ∃ t, exec (.seByte 0x1#4 0x00#8) atTop = .next t ∧ 4095 ≤ t.pc.toNat :=
  ⟨⟨_, rfl, by decide⟩, ⟨_, rfl, by decide⟩, _, rfl, by decide⟩

theorem witness_faulted_call : (HostCall.load []) ≠ .reset := by decide

theorem witness_faulted : faulted.fault.faulted = true := rfl

/-- The state with an empty stack that is about to run 00EE. -/
def aboutToFault : State := State.reset.withFetchWord 16 0x00EE

theorem witness_fault_precise : aboutToFault.fault.faulted = false ∧
    ∃ t, serve .step aboutToFault = .next t ∧ t.fault.faulted = true := ⟨rfl, _, rfl, rfl⟩

theorem witness_fault_precise_fetch : ({ State.reset with pc := 0xFFF#16 } : State).fault.faulted = false ∧
    ∃ t, serve .step { State.reset with pc := 0xFFF#16 } = .next t ∧ t.fault.faulted = true := ⟨rfl, _, rfl, rfl⟩

theorem witness_fault_table : State.reset.fault.faulted = false ∧ FaultCondition .ret State.reset ∧
    FaultCondition (.ldBVx 0x1#4) { State.reset with i := 0xFFE#16 } ∧
    ¬ FaultCondition (.call 0x300#12) { State.reset with sp := some 14 } ∧
    ¬ FaultCondition (.skp 0x1#4) (regs [(0x1#4, 15#8)]) :=
  ⟨rfl, rfl, ⟨2, by decide, by decide⟩, by unfold FaultCondition; decide, by unfold FaultCondition; decide⟩

/-- The highest fetch that stays in memory. -/
theorem witness_fetch_in_memory : atTop.fault.faulted = false ∧ atTop.pc.toNat + 1 < 4096 := by decide

theorem witness_frame : ∃ t, exec (.addReg 0x1#4 0x2#4) State.reset = .next t := ⟨_, rfl⟩

theorem witness_invariant : State.reset.Inv ∧ ∃ t, step State.reset = .next t :=
  ⟨⟨by decide, by decide, by decide, rfl, fun _ => rfl, by decide⟩, _, rfl⟩

/-- A sprite of one pixel whose two rows end at the last byte of memory, over a screen whose pixel (0, 0) is set. -/
def lastRows : State := { sprite 0xFFE#16 [0x80#8, 0x80#8] [] with fb := Frame.black.flip 0 0 }

theorem witness_draw : (∀ k, k < (0x2#4).toNat → lastRows.i.toNat + k < 4096) ∧
    lastRows.SpriteCovers 0x0#4 0x1#4 0x2#4 0 0 ∧ lastRows.fb.pixel 0 0 = true ∧
    lastRows.SpriteCovers 0x0#4 0x1#4 0x2#4 1 0 ∧ lastRows.fb.pixel 1 0 = false :=
  ⟨by decide, ⟨0, 0, by decide⟩, by decide, ⟨1, 0, by decide⟩, by decide⟩

/-- A blank sprite covers nothing, so no covered pixel is set. -/
theorem witness_draw_no_collision : ∀ r c, State.reset.SpriteCovers 0x0#4 0x1#4 0x0#4 r c → State.reset.fb.pixel r c = false :=
  fun _ _ ⟨_, _, h, _⟩ => absurd h (Nat.not_lt_zero _)

theorem witness_draw_oob : 2 < (0x3#4).toNat ∧ 4096 ≤ lastRows.i.toNat + 2 ∧
    ∀ j, j < 2 → lastRows.i.toNat + j < 4096 := by decide

theorem witness_draw_twice : (∀ k, k < (0x2#4).toNat → lastRows.i.toNat + k < 4096) ∧
    ∃ t, exec (.drw 0x0#4 0x1#4 0x2#4) lastRows = .next t ∧ t.reg 0x0#4 = lastRows.reg 0x0#4 ∧
      t.reg 0x1#4 = lastRows.reg 0x1#4 ∧ ∃ r c, lastRows.fb.pixel r c = false ∧ t.fb.pixel r c = true :=
  ⟨by decide, _, rfl, by decide, by decide, 1, 0, by decide, by decide⟩

/-- A draw of no rows turns no pixel on. -/
theorem witness_draw_twice_blank : ∃ t, exec (.drw 0x0#4 0x1#4 0x0#4) lastRows = .next t ∧
    t.reg 0x0#4 = lastRows.reg 0x0#4 ∧ t.reg 0x1#4 = lastRows.reg 0x1#4 ∧
    ∀ r c, lastRows.fb.pixel r c = false → t.fb.pixel r c = false :=
  ⟨_, rfl, by decide, by decide, fun _ _ h => h⟩

theorem witness_return : ({ State.reset with sp := some 15 } : State).sp = some (15 : Fin 16) ∧
    State.reset.spInt = -1 := ⟨rfl, rfl⟩

theorem witness_call : ({ State.reset with sp := some 14 } : State).spInt < 15 ∧ State.reset.spInt < 15 ∧
    ({ State.reset with sp := some 15 } : State).spInt = 15 := by decide

theorem witness_call_then_return : ({ State.reset with sp := some 14 } : State).waiting = false ∧
    ({ State.reset with sp := some 14 } : State).spInt < 15 := by decide

theorem witness_unknown_word : ∀ r ∈ opcodeMap, ¬ r.Matches 0x00EF#16 := by decide

theorem witness_skip_low_nibble : (0xF#4 : Nibble) ≠ 0x0#4 ∧ (0x1#4 : Nibble) ≠ 0x0#4 ∧
    (0x5ABF#16).toNat = 0x5000 + 0x100 * (0xA#4).toNat + 0x10 * (0xB#4).toNat + (0xF#4).toNat ∧
    (0x9AB1#16).toNat = 0x9000 + 0x100 * (0xA#4).toNat + 0x10 * (0xB#4).toNat + (0x1#4).toNat := by decide

theorem witness_result_register : (0xE#4 : Nibble) ≠ 0xF#4 := by decide

theorem witness_shift_right : (5 : Nat) = (if (regs [(0x1#4, 5#8)]).cfg.acc6 then (regs [(0x1#4, 5#8)]).reg 0x2#4
    else (regs [(0x1#4, 5#8)]).reg 0x1#4).toNat := by decide

theorem witness_shift_left : (5 : Nat) = (if (regs [(0x1#4, 5#8)]).cfg.accE then (regs [(0x1#4, 5#8)]).reg 0x2#4
    else (regs [(0x1#4, 5#8)]).reg 0x1#4).toNat := by decide

theorem witness_decimal_digits : ({ State.reset with i := 0xFFD#16 } : State).i.toNat + 2 < 4096 ∧
    4096 ≤ ({ State.reset with i := 0xFFE#16 } : State).i.toNat + 2 := by decide

/-- The clauses of the store and of the load of V0 to VF. -/
theorem witness_register_block : ({ State.reset with i := 0xFF0#16 } : State).i.toNat + (0xF#4).toNat < 4096 ∧
    4096 ≤ ({ State.reset with i := 0xFF1#16 } : State).i.toNat + (0xF#4).toNat ∧ (0xF#4).toNat ≤ (0xF#4).toNat := by decide

theorem witness_skip_on_key : ((regs [(0x1#4, 15#8)]).reg 0x1#4).toNat ≤ 15 ∧ 15 < ((regs [(0x1#4, 16#8)]).reg 0x1#4).toNat := by
  decide

/-- A state waiting in Fx0A with a value in V2 and keys down. -/
def waitingWith (b : Byte) (keys : Word) : State := { regs [(0x2#4, b)] with waiting := true, keypad := keys }

theorem witness_wait_idle : State.reset.waiting = false := rfl

theorem witness_wait_no_key : (waitingWith 0xFF#8 0#16).waiting = true ∧ (waitingWith 0xFF#8 0#16).reg 0x2#4 = 0xFF#8 ∧
    (waitingWith 0xFF#8 0#16).keypad = 0#16 := by decide

theorem witness_wait_key : (waitingWith 0xFF#8 0x8001#16).waiting = true ∧ (waitingWith 0xFF#8 0x8001#16).reg 0x2#4 = 0xFF#8 ∧
    (waitingWith 0xFF#8 0x8001#16).keypad.getLsbD 15 = true ∧
    ∀ j, 15 < j → j < 16 → (waitingWith 0xFF#8 0x8001#16).keypad.getLsbD j = false :=
  ⟨rfl, by decide, by decide, fun j h h' => by omega⟩

theorem witness_wait_held : (waitingWith 15#8 0x8000#16).waiting = true ∧ ((waitingWith 15#8 0x8000#16).reg 0x2#4).toNat ≤ 15 ∧
    (waitingWith 15#8 0x8000#16).keypad.getLsbD ((waitingWith 15#8 0x8000#16).reg 0x2#4).toNat = true := by decide

theorem witness_wait_released : (waitingWith 15#8 0#16).waiting = true ∧ ((waitingWith 15#8 0#16).reg 0x2#4).toNat ≤ 15 ∧
    (waitingWith 15#8 0#16).keypad.getLsbD ((waitingWith 15#8 0#16).reg 0x2#4).toNat = false := by decide

theorem witness_wait_bad_key : (waitingWith 16#8 0#16).waiting = true ∧ (waitingWith 16#8 0#16).reg 0x2#4 ≠ 0xFF#8 ∧
    15 < ((waitingWith 16#8 0#16).reg 0x2#4).toNat := by decide

/-- A state with an IPS. -/
def withIps (s : State) (ips : Int) : State := { s with cfg := ⟨ips, false, false⟩ }

/-- The clauses of EXECUTE: paused, not yet due, due. -/
theorem witness_execute : (withIps State.reset 0).cfg.ips ≤ 0 ∧ 0 < (withIps State.reset 1000).cfg.ips ∧
    (withIps State.reset 1000).accI + 999 < 1000000 / (withIps State.reset 1000).cfg.ips.toNat ∧
    1000000 / (withIps State.reset 1000).cfg.ips.toNat ≤ (withIps State.reset 1000).accI + 1000 := by decide

/-- A step that is due may fault and may not. -/
theorem witness_execute_step : (∃ v, serve .step (withIps aboutToFault 1000) = .next v ∧ v.fault.faulted = true) ∧
    ∃ v, serve .step (withIps State.reset 1000) = .next v ∧ v.fault.faulted = false := ⟨⟨_, rfl, rfl⟩, _, rfl, rfl⟩

theorem witness_direct_step :
    (∃ t, serve .step ((regs [(0x4#4, 60#8)]).withFetchWord 16 0xF415) = .next t ∧ t.dt ≠ 0#8) ∧
    ∃ t, serve .step ((regs [(0x4#4, 60#8)]).withFetchWord 16 0xF418) = .next t ∧ t.st ≠ 0#8 :=
  ⟨⟨_, rfl, by decide⟩, _, rfl, by decide⟩

/-- Sixteen calls waiting, and one of another kind after them. -/
def sixteenCalls : State := { State.reset with calls := List.replicate 16 (.execute 1000) ++ [.step] }

theorem witness_sixteen_calls : sixteenCalls.cfg.ips ≤ 0 ∧ sixteenCalls.accT = 0 ∧ 16 ≤ 16 ∧
    sixteenCalls.calls = List.replicate 16 (.execute 1000) ++ [.step] := by decide

theorem witness_fifteen_calls : 15 ≤ 16 ∧
    sixteenCalls.calls = List.replicate 15 (.execute 1000) ++ [.execute 1000, .step] := by decide

theorem witness_power_on : ∃ s : State, s = State.powerOn 700 true false := ⟨_, rfl⟩

theorem witness_font_and_ram : (79 : Nat) < 80 ∧ (80 : Nat) ≤ 80 ∧ (80 : Nat) < 4096 := by decide

theorem witness_load : (List.replicate 3584 0xAA#8).length ≤ 3584 ∧ 3584 < (List.replicate 3585 0xAA#8).length ∧
    3583 < (List.replicate 3584 0xAA#8).length := by
  simp only [List.length_replicate]; omega

/-- The image of L1-11 waiting to be loaded. -/
def aboutToLoad : State := { State.reset with calls := [.load [0xA2#8, 0x00#8, 0xD0#8, 0x12#8]] }

theorem witness_loaded_program : aboutToLoad.calls = [.load (0xA2#8 :: 0x00#8 :: [0xD0#8, 0x12#8])] ∧
    aboutToLoad.pc = 0x200#16 ∧ aboutToLoad.fault.faulted = false ∧ [0xD0#8, 0x12#8].length + 2 ≤ 3584 := by decide

theorem witness_host_calls : State.reset.calls = [] ∧
    sixteenCalls.calls = .execute 1000 :: (List.replicate 15 (.execute 1000) ++ [.step]) := by decide

end Sys2Proof.Tests
end

section
/-! ## Faults and completions of `exec`
Each instruction either faults, exactly as `FaultCondition`, `FaultCause` and `FaultInfo` tabulate it
(spec/60_exceptions.md R261), or completes. Where the outcome branches, one equation per completing branch. -/

namespace Sys2Proof.Machine

theorem inBounds_eq_false_iff (a k : Nat) : inBounds a k = false ↔ ∃ j, j < k ∧ 4096 ≤ a + j := by
  rw [← Bool.not_eq_true, inBounds_iff]
  constructor
  · intro h
    exact ⟨k - 1, by omega, by omega⟩
  · rintro ⟨j, hj, ha⟩
    omega

theorem isKey_eq_false_iff (k : Byte) : isKey k = false ↔ 15 < k.toNat := by
  simp only [isKey, decide_eq_false_iff_not, Config.numKeys]
  omega

/-- The bounds check of `k` bytes at I, in the words of `FaultCondition`. -/
theorem inBounds_effAddr_eq_false_iff (s : State) (k : Nat) :
    inBounds (s.effAddr 0) k = false ↔ ∃ j, j < k ∧ 4096 ≤ s.i.toNat + j :=
  inBounds_eq_false_iff s.i.toNat k

/-- The bounds check of the bytes of V0 to Vx at I, in the words of `FaultCondition`. -/
theorem inBounds_regs_eq_false_iff (s : State) (x : Nibble) :
    inBounds (s.effAddr 0) (x.toNat + 1) = false ↔ ∃ j, j ≤ x.toNat ∧ 4096 ≤ s.i.toNat + j := by
  simp only [inBounds_effAddr_eq_false_iff, Nat.lt_succ_iff]

/-- Under its fault condition an instruction takes the fault of the table and does nothing else. -/
theorem exec_of_faultCondition {i : Instr} {s : State} (hf : FaultCondition i s) :
    exec i s = .next (s.takeFault (FaultCause i) (encode i) (FaultInfo i s)) := by
  cases i with
  | ret =>
    have hpop : s.preAdvance.pop = none := (pop_eq_none_iff _).2 hf
    simp only [exec, execRet, hpop]
    rfl
  | call nnn =>
    have hpush : s.preAdvance.push s.postPc = none := (push_eq_none_iff _ _).2 hf
    simp only [exec, execCall, hpush]
    rfl
  | drw x y n => exact if_neg (ne_true_of_eq_false ((inBounds_effAddr_eq_false_iff s _).2 hf))
  | ldBVx x => exact if_neg (ne_true_of_eq_false ((inBounds_effAddr_eq_false_iff s _).2 hf))
  | storeRegs x => exact if_neg (ne_true_of_eq_false ((inBounds_regs_eq_false_iff s x).2 hf))
  | loadRegs x => exact if_neg (ne_true_of_eq_false ((inBounds_regs_eq_false_iff s x).2 hf))
  | skp x => exact if_neg (ne_true_of_eq_false ((isKey_eq_false_iff _).2 hf))
  | sknp x => exact if_neg (ne_true_of_eq_false ((isKey_eq_false_iff _).2 hf))
  | ldVxK x =>
    obtain ⟨hw, hs, hx⟩ := hf
    have hk : isKey (s.reg x) = false := (isKey_eq_false_iff _).2 hx
    simp only [exec, execLdVxK, hw, hs, hk]
    rfl
  | _ => exact False.elim hf

theorem exec_ret_completes {s : State} (hf : ¬ FaultCondition .ret s) :
    ∃ ret t, s.preAdvance.pop = some (ret, t) ∧ exec .ret s = .next (t.jump ret) := by
  cases hpop : s.preAdvance.pop with
  | none => exact absurd ((pop_eq_none_iff _).1 hpop) hf
  | some r => exact ⟨r.1, r.2, rfl, by simp only [exec, execRet, hpop]⟩

theorem exec_call_completes {s : State} {nnn : Addr12} (hf : ¬ FaultCondition (.call nnn) s) :
    ∃ t, s.preAdvance.push s.postPc = some t ∧ exec (.call nnn) s = .next (t.jump (zext16 nnn)) := by
  cases hpush : s.preAdvance.push s.postPc with
  | none => exact absurd ((push_eq_none_iff _ _).1 hpush) hf
  | some t => exact ⟨t, rfl, by simp only [exec, execCall, hpush]⟩

theorem exec_drw_completes {s : State} {x y n : Nibble} (hf : ¬ FaultCondition (.drw x y n) s) :
    ∃ cv : Canvas,
      cv = Canvas.drawRows ⟨s.fb, false⟩ (s.reg x).toNat (s.reg y).toNat (s.mem.readBytes (s.effAddr 0) n.toNat) ∧
      exec (.drw x y n) s = .next (({ s.preAdvance with fb := cv.fb }.setFlag cv.hit).notifyDraw) :=
  ⟨_, rfl, if_pos (eq_true_of_ne_false (mt (inBounds_effAddr_eq_false_iff s _).1 hf))⟩

theorem exec_ldBVx_completes {s : State} {x : Nibble} (hf : ¬ FaultCondition (.ldBVx x) s) :
    inBounds (s.effAddr 0) 3 = true ∧
      exec (.ldBVx x) s = .next (s.preAdvance.storeBytes (s.effAddr 0) (bcdDigits (s.reg x))) :=
  have hb := eq_true_of_ne_false (mt (inBounds_effAddr_eq_false_iff s _).1 hf)
  ⟨hb, if_pos hb⟩

theorem exec_storeRegs_completes {s : State} {x : Nibble} (hf : ¬ FaultCondition (.storeRegs x) s) :
    inBounds (s.effAddr 0) (x.toNat + 1) = true ∧
      exec (.storeRegs x) s = .next (s.preAdvance.storeBytes (s.effAddr 0) (s.regsTo x)) :=
  have hb := eq_true_of_ne_false (mt (inBounds_regs_eq_false_iff s x).1 hf)
  ⟨hb, if_pos hb⟩

theorem exec_loadRegs_completes {s : State} {x : Nibble} (hf : ¬ FaultCondition (.loadRegs x) s) :
    exec (.loadRegs x) s = .next (s.preAdvance.setRegs 0 (s.mem.readBytes (s.effAddr 0) (x.toNat + 1))) :=
  if_pos (eq_true_of_ne_false (mt (inBounds_regs_eq_false_iff s x).1 hf))

theorem exec_skp_completes {s : State} {x : Nibble} (hf : ¬ FaultCondition (.skp x) s) :
    exec (.skp x) s = .next (s.preAdvance.skipIf (s.keyDown (s.reg x))) :=
  if_pos (eq_true_of_ne_false (mt (isKey_eq_false_iff _).1 hf))

theorem exec_sknp_completes {s : State} {x : Nibble} (hf : ¬ FaultCondition (.sknp x) s) :
    exec (.sknp x) s = .next (s.preAdvance.skipIf (!s.keyDown (s.reg x))) :=
  if_pos (eq_true_of_ne_false (mt (isKey_eq_false_iff _).1 hf))

/-- Fx0A that does not fault is in one of its four phases (spec/44_keys_timers.md R233-R235): idle, waiting for a
key, key held, key released. -/
theorem exec_ldVxK_completes {s : State} {x : Nibble} (hf : ¬ FaultCondition (.ldVxK x) s) :
    (s.waiting = false ∧ exec (.ldVxK x) s = .next
      (({ s.preAdvance with keypad := 0#16, waiting := true }.setReg x Config.keySentinel).jump (s.postPc - 2#16))) ∨
    (s.waiting = true ∧ s.reg x = Config.keySentinel ∧ exec (.ldVxK x) s = .next
      (s.preAdvance.setReg x (scanKeys s.keypad (s.reg x) 0 Config.numKeys))) ∨
    (s.waiting = true ∧ s.reg x ≠ Config.keySentinel ∧ s.keyDown (s.reg x) = true ∧
      exec (.ldVxK x) s = .next s.preAdvance) ∨
    (s.waiting = true ∧ s.reg x ≠ Config.keySentinel ∧ s.keyDown (s.reg x) = false ∧
      exec (.ldVxK x) s = .next ({ s.preAdvance with waiting := false }.jump (s.postPc + 2#16))) := by
  simp only [exec, execLdVxK]
  cases hw : s.waiting with
  | false => exact .inl ⟨rfl, rfl⟩
  | true =>
    by_cases hs : s.reg x = Config.keySentinel
    · exact .inr (.inl ⟨rfl, hs, if_pos hs⟩)
    · cases hk : isKey (s.reg x) with
      | false => exact absurd ⟨hw, hs, (isKey_eq_false_iff _).1 hk⟩ hf
      | true =>
        cases hd : s.keyDown (s.reg x) with
        | true => exact .inr (.inr (.inl ⟨rfl, hs, rfl, if_neg hs⟩))
        | false => exact .inr (.inr (.inr ⟨rfl, hs, rfl, if_neg hs⟩))

end Sys2Proof.Machine
end

section
/-! ## The invariant
One lemma per operation on the state that touches what the invariant speaks of, then `exec`, STEP, and each host
call. A write to another part (a register, I, a timer, the keypad, the framebuffer) leaves the invariant as the same
proposition, so its proof carries over as it stands. -/

namespace Sys2Proof.Machine

theorem State.inv_powerOn (ips0 : Int) (acc60 accE0 : Bool) : (State.powerOn ips0 acc60 accE0).Inv :=
  ⟨Memory.wf_nil, fun j => by simp [State.powerOn], (by decide : (0x200 : Nat) ≤ 0x10FE), rfl, fun _ => rfl,
    nofun⟩

theorem State.Inv.jump {s : State} (h : s.Inv) {target : Word} (ht : target.toNat ≤ 0x10FE) :
    (s.jump target).Inv :=
  let ⟨hmem, hstack, _, hdraws, hclear, hcause⟩ := h
  ⟨hmem, hstack, ht, hdraws, hclear, hcause⟩

theorem State.Inv.takeFault {s : State} (h : s.Inv) {cause : Cause} (hc : cause ≠ .none) (op : Word) (info : Int) :
    (s.takeFault cause op info).Inv :=
  let ⟨hmem, hstack, hpc, hdraws, _, _⟩ := h
  ⟨hmem, hstack, hpc, hdraws, nofun, fun _ => hc⟩

theorem State.Inv.notifyDraw {s : State} (h : s.Inv) : s.notifyDraw.Inv :=
  let ⟨hmem, hstack, hpc, hdraws, hclear, hcause⟩ := h
  ⟨hmem, hstack, hpc, by simp [hdraws], hclear, hcause⟩

theorem State.Inv.storeBytes {s : State} (h : s.Inv) {a : Nat} {bs : List Byte}
    (hb : inBounds a bs.length = true) : (s.storeBytes a bs).Inv := by
  obtain ⟨hmem, hstack, hpc, hdraws, hclear, hcause⟩ := h
  refine ⟨?_, hstack, hpc, hdraws, hclear, hcause⟩
  rcases (inBounds_iff _ _).1 hb with h0 | hle
  · rw [List.length_eq_zero_iff.1 h0]
    exact hmem
  · exact Memory.wf_writeBytes hmem a bs hle

theorem State.Inv.setRegs {s : State} (h : s.Inv) (k : Nat) (bs : List Byte) : (s.setRegs k bs).Inv := by
  induction bs generalizing s k with
  | nil => exact h
  | cons b bs ih => exact ih (s := s.setReg (BitVec.ofNat 4 k) b) h (k + 1)

theorem State.Inv.pop {s t : State} (h : s.Inv) {ret : Word} (hp : s.pop = some (ret, t)) :
    t.Inv ∧ ret.toNat ≤ 0x1000 := by
  unfold State.pop at hp
  split at hp
  · cases hp
  · next k _ =>
    cases hp
    obtain ⟨hmem, hstack, hrest⟩ := h
    exact ⟨⟨hmem, hstack, hrest⟩, hstack k⟩

theorem State.Inv.push {s t : State} (h : s.Inv) {ret : Word} (hret : ret.toNat ≤ 0x1000)
    (hp : s.push ret = some t) : t.Inv := by
  obtain ⟨hmem, hstack, hpc, hdraws, hclear, hcause⟩ := h
  unfold State.push at hp
  split at hp
  · cases hp
  · next k _ =>
    cases hp
    refine ⟨hmem, fun j => ?_, hpc, hdraws, hclear, hcause⟩
    rw [Vector.getElem_set]
    split
    · exact hret
    · exact hstack j

/-- After a fetch below MEM_SIZE the post-increment pc does not wrap (R82). -/
theorem State.toNat_postPc_le {s : State} (hpc : s.pc.toNat + 1 < 4096) : s.postPc.toNat ≤ 0x1000 := by
  unfold State.postPc
  split
  · omega
  · rw [BitVec.toNat_add]
    simp only [BitVec.toNat_ofNat]
    omega

theorem State.Inv.preAdvance {s : State} (h : s.Inv) (hpc : s.pc.toNat + 1 < 4096) : s.preAdvance.Inv :=
  h.jump (Nat.le_trans (State.toNat_postPc_le hpc) (by decide))

/-- A word of at most 0x1000 advanced by 2 is still within the bound of R46 on pc. -/
theorem toNat_add_two_le {w : Word} (hw : w.toNat ≤ 0x1000) : (w + 2#16).toNat ≤ 0x10FE := by
  rw [BitVec.toNat_add]
  simp only [BitVec.toNat_ofNat]
  omega

theorem State.Inv.skip {s : State} (h : s.Inv) (hpc : s.pc.toNat + 1 < 4096) (test : Bool) :
    (s.preAdvance.skipIf test).Inv := by
  cases test with
  | false => exact h.preAdvance hpc
  | true => exact (h.preAdvance hpc).jump (toNat_add_two_le (State.toNat_postPc_le hpc))

theorem toNat_zext16_le (nnn : Addr12) : (zext16 nnn).toNat ≤ 0xFFF := by
  rw [BitVec.toNat_setWidth]
  omega

/-- The largest target of Bnnn (spec/41_control.md R141). -/
theorem State.toNat_offsetTarget_le (s : State) (nnn : Addr12) : (s.offsetTarget nnn).toNat ≤ 0x10FE := by
  have hv := (s.reg 0x0#4).isLt
  have hn := nnn.isLt
  simp only [State.offsetTarget, BitVec.toNat_add, BitVec.toNat_setWidth]
  omega

theorem faultCause_ne_none {i : Instr} {s : State} (hf : FaultCondition i s) : FaultCause i ≠ .none := by
  cases i with
  | ret | call | drw | ldBVx | storeRegs | loadRegs | skp | sknp | ldVxK => exact nofun
  | _ => exact False.elim hf

/-- An instruction that completes keeps the invariant. The last arm is for those that write only registers, I, timers
or the counter of RND besides the pre-advance. -/
theorem exec_completes_inv {i : Instr} {s : State} (h : s.Inv) (hpc : s.pc.toNat + 1 < 4096)
    (hf : ¬ FaultCondition i s) : ∃ t, exec i s = .next t ∧ t.Inv := by
  have hp : s.preAdvance.Inv := h.preAdvance hpc
  have hpost : s.postPc.toNat ≤ 0x1000 := State.toNat_postPc_le hpc
  cases i with
  | cls => exact ⟨_, rfl, State.Inv.notifyDraw hp⟩
  | ret =>
    obtain ⟨ret, t, hpop, he⟩ := exec_ret_completes hf
    obtain ⟨ht, hret⟩ := hp.pop hpop
    exact ⟨_, he, ht.jump (by omega)⟩
  | jp nnn =>
    have hn := toNat_zext16_le nnn
    exact ⟨_, rfl, h.jump (by omega)⟩
  | call nnn =>
    obtain ⟨t, hpush, he⟩ := exec_call_completes hf
    have hn := toNat_zext16_le nnn
    exact ⟨_, he, (hp.push hpost hpush).jump (by omega)⟩
  | jpV0 nnn => exact ⟨_, rfl, h.jump (s.toNat_offsetTarget_le nnn)⟩
  | seByte | sneByte | seReg | sneReg => exact ⟨_, rfl, h.skip hpc _⟩
  | skp x => exact ⟨_, exec_skp_completes hf, h.skip hpc _⟩
  | sknp x => exact ⟨_, exec_sknp_completes hf, h.skip hpc _⟩
  | drw x y n =>
    obtain ⟨cv, _, he⟩ := exec_drw_completes hf
    exact ⟨_, he, State.Inv.notifyDraw hp⟩
  | ldBVx x =>
    obtain ⟨hb, he⟩ := exec_ldBVx_completes hf
    exact ⟨_, he, hp.storeBytes hb⟩
  | storeRegs x =>
    obtain ⟨hb, he⟩ := exec_storeRegs_completes hf
    exact ⟨_, he, hp.storeBytes (by rwa [length_regsTo])⟩
  | loadRegs x => exact ⟨_, exec_loadRegs_completes hf, hp.setRegs 0 _⟩
  | ldVxK x =>
    rcases exec_ldVxK_completes hf with ⟨hw, he⟩ | ⟨_, _, he⟩ | ⟨_, _, _, he⟩ | ⟨hw, _, _, he⟩
    · have hback : s.postPc - 2#16 = s.pc := by simp [State.postPc, hw]
      exact ⟨_, he, State.Inv.jump hp (by rw [hback]; omega)⟩
    · exact ⟨_, he, hp⟩
    · exact ⟨_, he, hp⟩
    · exact ⟨_, he, State.Inv.jump hp (toNat_add_two_le hpost)⟩
  | _ => exact ⟨_, rfl, hp⟩

/-- An instruction fetched below MEM_SIZE keeps the invariant, whether it faults or completes. -/
theorem exec_keeps_inv {i : Instr} {s t : State} (h : s.Inv) (hpc : s.pc.toNat + 1 < 4096)
    (he : exec i s = .next t) : t.Inv := by
  by_cases hf : FaultCondition i s
  · rw [exec_of_faultCondition hf] at he
    cases he
    exact h.takeFault (faultCause_ne_none hf) _ _
  · obtain ⟨u, hu, hinv⟩ := exec_completes_inv h hpc hf
    rw [hu] at he
    cases he
    exact hinv

theorem engineStep_keeps_inv {s t : State} (h : s.Inv) (he : engineStep s = .next t) : t.Inv := by
  unfold engineStep at he
  split at he
  · cases he
    exact h
  · split at he
    · next hfetch => exact exec_keeps_inv h (of_decide_eq_true hfetch) he
    · cases he
      exact h.takeFault (cause := .fetchOob) nofun _ _

theorem State.Inv.timerTick {s : State} (h : s.Inv) : s.timerTick.Inv := by
  unfold State.timerTick
  split
  · exact h
  · exact h

theorem State.Inv.settleStep {s : State} (h : s.Inv) : s.settleStep.Inv := by
  unfold State.settleStep
  split
  · exact h
  · exact h

/-- EXECUTE either stops after the timer part or makes one STEP from there (R275, R280). -/
theorem execute_cases {dt : Nat} {s t : State} (he : execute dt s = .next t) :
    t = (s.accumulate dt).timerTick ∨
      ∃ u, engineStep (s.accumulate dt).timerTick = .next u ∧ t = u.settleStep := by
  simp only [execute] at he
  split at he
  · split at he
    · next u hu =>
      cases he
      exact .inr ⟨u, hu, rfl⟩
    · cases he
    · cases he
  · cases he
    exact .inl rfl

theorem execute_keeps_inv {dt : Nat} {s t : State} (h : s.Inv) (he : execute dt s = .next t) : t.Inv := by
  have htick : (s.accumulate dt).timerTick.Inv := State.Inv.timerTick (s := s.accumulate dt) h
  rcases execute_cases he with rfl | ⟨u, hu, rfl⟩
  · exact htick
  · exact (engineStep_keeps_inv htick hu).settleStep

theorem State.Inv.hostReset {s : State} (h : s.Inv) : s.hostReset.Inv :=
  let ⟨hmem, hstack, hpc, _, hclear, hcause⟩ := State.inv_powerOn s.cfg.ips s.cfg.acc6 s.cfg.accE
  let ⟨_, _, _, hdraws, _, _⟩ := h
  ⟨hmem, hstack, hpc, hdraws, hclear, hcause⟩

theorem State.Inv.hostLoad {s : State} (h : s.Inv) (image : List Byte) : (s.hostLoad image).Inv := by
  unfold State.hostLoad
  split
  · next hfits =>
    have hlen : image.length ≤ 3584 := of_decide_eq_true hfits
    exact h.storeBytes ((inBounds_iff _ _).2 (.inr (by simp only [Config.progBase]; omega)))
  · exact h

theorem serve_keeps_inv {c : HostCall} {s t : State} (h : s.Inv) (hs : serve c s = .next t) : t.Inv := by
  cases c with
  | execute dt => exact execute_keeps_inv h hs
  | step => exact engineStep_keeps_inv h hs
  | reset =>
    cases hs
    exact h.hostReset
  | load image =>
    cases hs
    exact h.hostLoad image
  | writeKeypad | writeConfig | readFb | readStatus | subscribe =>
    cases hs
    exact h

/-- Settles O14: every host call keeps the invariant, and a step is one host call. -/
theorem stepKeepsInvariant : Obligations.StepKeepsInvariant := by
  intro s t h hstep
  unfold step serveNext at hstep
  split at hstep
  · exact engineStep_keeps_inv h hstep
  · next c rest _ => exact serve_keeps_inv (s := { s with calls := rest }) h hstep

/-- Settles O13: reset is power-on with the parameter values of `Config`. -/
theorem powerOnMeetsInvariant : Obligations.PowerOnMeetsInvariant :=
  ⟨State.inv_powerOn, State.inv_powerOn _ _ _⟩

end Sys2Proof.Machine
end

section
/-! ## The frame of each instruction
The record updates that have no name in the model, and then every completing instruction as a chain of the operations
of Sys2Proof/Laws/Frame.lean (spec/10_state.md R24-R41, R207). -/

namespace Sys2Proof.Machine

theorem withI_onlyChanges (s : State) (w : Word) : OnlyChanges (· = .i) s { s with i := w } := fun p hp => by
  cases p with
  | i => exact absurd rfl hp
  | _ => rfl

theorem withDt_onlyChanges (s : State) (b : Byte) : OnlyChanges (· = .dt) s { s with dt := b } := fun p hp => by
  cases p with
  | dt => exact absurd rfl hp
  | _ => rfl

theorem withSt_onlyChanges (s : State) (b : Byte) : OnlyChanges (· = .st) s { s with st := b } := fun p hp => by
  cases p with
  | st => exact absurd rfl hp
  | _ => rfl

theorem withWaiting_onlyChanges (s : State) (b : Bool) : OnlyChanges (· = .waiting) s { s with waiting := b } :=
  fun p hp => by
    cases p with
    | waiting => exact absurd rfl hp
    | _ => rfl

theorem withKeypad_onlyChanges (s : State) (w : Word) : OnlyChanges (· = .keypad) s { s with keypad := w } :=
  fun p hp => by
    cases p with
    | keypad => exact absurd rfl hp
    | _ => rfl

theorem withFb_onlyChanges (s : State) (fb : Frame) :
    OnlyChanges (fun p => ∃ r c, p = .pixel r c) s { s with fb := fb } := fun p hp => by
  cases p with
  | pixel r c => exact absurd ⟨r, c, rfl⟩ hp
  | _ => rfl

theorem drawRnd_onlyChanges (s : State) : OnlyChanges (· = .rndNo) s s.drawRnd.2 := fun p hp => by
  cases p with
  | rndNo => exact absurd rfl hp
  | _ => rfl

/-- The pre-advance before a change adds pc to what it changes. -/
theorem OnlyChanges.afterPreAdvance {P : Part → Prop} {s t : State} (h : OnlyChanges P s.preAdvance t) :
    OnlyChanges (fun p => P p ∨ p = .pc) s t :=
  ((preAdvance_onlyChanges s).trans h).mono fun _ => Or.symm

/-- A jump after a change that may move pc. -/
theorem OnlyChanges.thenJump {P : Part → Prop} {s t : State} (h : OnlyChanges (fun p => P p ∨ p = .pc) s t)
    (target : Word) : OnlyChanges (fun p => P p ∨ p = .pc) s (t.jump target) :=
  (h.trans (jump_onlyChanges t target)).mono fun _ hp => hp.elim id .inr

/-- A change of pc alone, whatever else is allowed. -/
theorem OnlyChanges.ofPc {s t : State} (h : OnlyChanges (· = .pc) s t) (P : Part → Prop) :
    OnlyChanges (fun p => P p ∨ p = .pc) s t := h.mono fun _ => .inr

theorem preAdvance_skipIf_onlyChanges (s : State) (test : Bool) (P : Part → Prop) :
    OnlyChanges (fun p => P p ∨ p = .pc) s (s.preAdvance.skipIf test) :=
  ((skipIf_onlyChanges s.preAdvance test).afterPreAdvance.mono fun _ hp => hp.elim id id).ofPc P

/-- An instruction that completes changes pc and the parts it may write. -/
theorem exec_completes_onlyChanges {i : Instr} {s : State} (hf : ¬ FaultCondition i s) :
    ∃ t, exec i s = .next t ∧ OnlyChanges (fun p => MayWrite s i p ∨ p = .pc) s t := by
  cases i with
  | cls =>
    exact ⟨_, rfl, ((withFb_onlyChanges s.preAdvance Frame.black).trans (notifyDraw_onlyChanges _)).afterPreAdvance⟩
  | ret =>
    obtain ⟨ret, t, hpop, he⟩ := exec_ret_completes hf
    obtain ⟨_, _, _, _, hframe⟩ := pop_spec hpop
    exact ⟨_, he, hframe.afterPreAdvance.thenJump ret⟩
  | jp nnn => exact ⟨_, rfl, (jump_onlyChanges s _).ofPc _⟩
  | call nnn =>
    obtain ⟨t, hpush, he⟩ := exec_call_completes hf
    obtain ⟨k, _, hk, _, hframe⟩ := push_spec hpush
    have hcall : OnlyChanges (MayWrite s (.call nnn)) s.preAdvance t :=
      hframe.mono fun p hp => hp.imp id fun e => ⟨k, e, hk⟩
    exact ⟨_, he, hcall.afterPreAdvance.thenJump _⟩
  | jpV0 nnn => exact ⟨_, rfl, (jump_onlyChanges s _).ofPc _⟩
  | seByte | sneByte | seReg | sneReg => exact ⟨_, rfl, preAdvance_skipIf_onlyChanges s _ _⟩
  | skp x => exact ⟨_, exec_skp_completes hf, preAdvance_skipIf_onlyChanges s _ _⟩
  | sknp x => exact ⟨_, exec_sknp_completes hf, preAdvance_skipIf_onlyChanges s _ _⟩
  | ldByte x | addByte x | ldReg x | orReg x | andReg x | xorReg x | ldVxDt x =>
    exact ⟨_, rfl, (setReg_onlyChanges s.preAdvance x _).afterPreAdvance⟩
  | addReg x | subReg x | shrReg x | subnReg x | shlReg x =>
    exact ⟨_, rfl, (setResult_onlyChanges s.preAdvance x _ _).afterPreAdvance⟩
  | rnd x kk =>
    have hrnd (b : Byte) := (drawRnd_onlyChanges s.preAdvance).trans (setReg_onlyChanges _ x b)
    exact ⟨_, rfl, ((hrnd _).mono fun _ => Or.symm).afterPreAdvance⟩
  | drw x y n =>
    obtain ⟨cv, _, he⟩ := exec_drw_completes hf
    have hdraw := (withFb_onlyChanges s.preAdvance cv.fb).trans
      ((setFlag_onlyChanges _ cv.hit).trans (notifyDraw_onlyChanges _))
    exact ⟨_, he, hdraw.afterPreAdvance⟩
  | ldVxK x =>
    rcases exec_ldVxK_completes hf with ⟨_, he⟩ | ⟨_, _, he⟩ | ⟨_, _, _, he⟩ | ⟨_, _, _, he⟩
    · have hidle := ((withKeypad_onlyChanges s.preAdvance 0#16).trans (withWaiting_onlyChanges _ true)).trans
        (setReg_onlyChanges _ x Config.keySentinel)
      exact ⟨_, he, (hidle.mono fun _ => Or.symm).afterPreAdvance.thenJump _⟩
    · exact ⟨_, he, ((setReg_onlyChanges s.preAdvance x _).mono fun _ => .inl).afterPreAdvance⟩
    · exact ⟨_, he, (preAdvance_onlyChanges s).ofPc _⟩
    · have hdone := (withWaiting_onlyChanges s.preAdvance false).afterPreAdvance
      exact ⟨_, he, (hdone.mono fun _ hp => hp.imp (fun e => .inr (.inr e)) id).thenJump _⟩
  | ldI | addIVx | ldFVx => exact ⟨_, rfl, (withI_onlyChanges s.preAdvance _).afterPreAdvance⟩
  | ldDtVx => exact ⟨_, rfl, (withDt_onlyChanges s.preAdvance _).afterPreAdvance⟩
  | ldStVx => exact ⟨_, rfl, (withSt_onlyChanges s.preAdvance _).afterPreAdvance⟩
  | ldBVx x =>
    obtain ⟨_, he⟩ := exec_ldBVx_completes hf
    exact ⟨_, he, (storeBytes_onlyChanges s.preAdvance _ (bcdDigits (s.reg x))).afterPreAdvance⟩
  | storeRegs x =>
    obtain ⟨_, he⟩ := exec_storeRegs_completes hf
    have hstore : OnlyChanges (MayWrite s (.storeRegs x)) s.preAdvance _ :=
      (storeBytes_onlyChanges s.preAdvance (s.effAddr 0) (s.regsTo x)).mono fun _ ⟨k, hk, hp⟩ =>
        ⟨k, by rw [length_regsTo] at hk; omega, hp⟩
    exact ⟨_, he, hstore.afterPreAdvance⟩
  | loadRegs x =>
    have hload : OnlyChanges (MayWrite s (.loadRegs x)) s.preAdvance _ :=
      (setRegs_onlyChanges s.preAdvance 0 (s.mem.readBytes (s.effAddr 0) (x.toNat + 1))).mono fun _ ⟨k, hk, hp⟩ =>
        ⟨BitVec.ofNat 4 (0 + k), by
          rw [Memory.length_readBytes] at hk
          rw [BitVec.toNat_ofNat]
          have hx := Nat.mod_le (0 + k) (2 ^ 4)
          omega, hp⟩
    exact ⟨_, exec_loadRegs_completes hf, hload.afterPreAdvance⟩
  | noop w => exact ⟨_, rfl, (preAdvance_onlyChanges s).ofPc _⟩

/-- Settles O12: a fault writes the fault registers, a completion pc and what the instruction may write. -/
theorem instructionsWriteOnlyTheirParts : Obligations.InstructionsWriteOnlyTheirParts := by
  intro i s t he
  by_cases hf : FaultCondition i s
  · rw [exec_of_faultCondition hf] at he
    cases he
    exact (takeFault_onlyChanges s _ _ _).mono fun _ hp => .inr (.inr ⟨hp, hf⟩)
  · obtain ⟨u, hu, hframe⟩ := exec_completes_onlyChanges hf
    rw [hu] at he
    cases he
    exact hframe.mono fun _ hp => hp.imp id .inl

end Sys2Proof.Machine
end

section
/-! ## The framebuffer read and the order of host calls (spec/10_state.md R35, spec/60_exceptions.md R285) -/

namespace Sys2Proof.Machine

/-- The RGBA view as the vector of SCREEN_H * SCREEN_W pixels it lists. -/
theorem Frame.rgba_eq_toList (fb : Frame) : fb.rgba = (fb.flatMap fun row => row.map rgbaOfBit).toList := by
  simp [Frame.rgba, Vector.flatMap, Vector.toList]

/-- Settles O54: pixel (col, row) is at the index whose quotient by SCREEN_W is row and whose remainder is col. -/
theorem readFramebuffer : Obligations.ReadFramebuffer := by
  intro s
  refine ⟨rfl, s.fb.rgba, rfl, ?_, fun r c => ?_⟩
  · rw [Frame.rgba_eq_toList, Vector.length_toList]
  · have hdiv : (r.val * Config.screenW + c.val) / Config.screenW = r.val := by
      rw [Nat.mul_comm, Nat.mul_add_div (by decide), Nat.div_eq_of_lt c.isLt, Nat.add_zero]
    have hmod : (r.val * Config.screenW + c.val) % Config.screenW = c.val := by
      rw [Nat.mul_add_mod', Nat.mod_eq_of_lt c.isLt]
    have hidx : r.val * Config.screenW + c.val < Config.screenH * Config.screenW :=
      (Nat.div_lt_iff_lt_mul (by decide)).1 (hdiv.trans_lt r.isLt)
    rw [Frame.rgba_eq_toList, Vector.getElem?_toList, Vector.getElem?_eq_getElem hidx, Vector.getElem_flatMap]
    simp only [hdiv, hmod, Vector.getElem_map]
    rfl

/-- Settles O56: serving the oldest call takes it off the list and changes nothing else before the call runs. -/
theorem hostCallsAreServedInOrder : Obligations.HostCallsAreServedInOrder := by
  intro s
  refine ⟨fun h => ?_, fun c rest h => ⟨{ s with calls := rest }, rfl, fun p hp => ?_, ?_⟩⟩
  · simp only [step, serveNext, h, serve]
  · cases p with
    | calls => exact absurd rfl hp
    | _ => rfl
  · simp only [step, serveNext, h]

end Sys2Proof.Machine
end

section
/-! ## A loaded program and its first fetch (spec/20_memory.md R74, spec/70_reset_and_hazards.md R310) -/

namespace Sys2Proof.Machine

theorem step_of_calls_cons {s : State} {c : HostCall} {rest : List HostCall} (h : s.calls = c :: rest) :
    step s = serve c { s with calls := rest } := by
  simp only [step, serveNext, h]

/-- STEP outside FAULTED and with both bytes in memory runs the fetched instruction (R81). -/
theorem engineStep_of_fetch {s : State} (hf : s.fault.faulted = false) (hpc : s.pc.toNat + 1 < 4096) :
    engineStep s = exec (decodeWord s.fetchWord) s := by
  have hok : s.fetchOk = true := decide_eq_true hpc
  simp [engineStep, hf, hok]

theorem State.hostLoad_of_length_le (s : State) {image : List Byte} (h : image.length ≤ 3584) :
    s.hostLoad image = s.storeBytes 0x200 image :=
  if_pos (decide_eq_true h)

/-- LOAD writes memory alone, whether the image fits or not (R304, R311). -/
theorem State.hostLoad_eq_withMem (s : State) (image : List Byte) :
    s.hostLoad image = { s with mem := (s.hostLoad image).mem } := by
  unfold hostLoad
  split <;> rfl

@[simp] theorem State.hostLoad_pc (s : State) (image : List Byte) : (s.hostLoad image).pc = s.pc := by
  rw [hostLoad_eq_withMem]

@[simp] theorem State.hostLoad_fault (s : State) (image : List Byte) : (s.hostLoad image).fault = s.fault := by
  rw [hostLoad_eq_withMem]

@[simp] theorem State.hostLoad_calls (s : State) (image : List Byte) : (s.hostLoad image).calls = s.calls := by
  rw [hostLoad_eq_withMem]

/-- Byte k of an image that fits is at 0x200 + k (R310). -/
theorem State.read_hostLoad (s : State) {image : List Byte} (hlen : image.length ≤ 3584) {k : Nat}
    (hk : k < image.length) : (s.hostLoad image).mem.read (0x200 + k) = image[k] := by
  rw [hostLoad_of_length_le s hlen, storeBytes_mem, Memory.read_writeBytes, dif_pos (by omega)]
  simp only [Nat.add_sub_cancel_left]

/-- Settles O52: LOAD leaves pc at its 0x200 and the fault registers clear, so the next fetch reads the image's first
two bytes. -/
theorem loadedProgramRuns : Obligations.LoadedProgramRuns := by
  intro s hi lo image hcalls hpc hfault hlen
  have hfits : (hi :: lo :: image).length ≤ 3584 := hlen
  refine ⟨_, step_of_calls_cons hcalls, ?_⟩
  generalize ht : State.hostLoad { s with calls := [] } (hi :: lo :: image) = t
  have hhi : t.mem.read 0x200 = hi := ht ▸ State.read_hostLoad _ (k := 0) hfits (by simp)
  have hlo : t.mem.read 0x201 = lo := ht ▸ State.read_hostLoad _ (k := 1) hfits (by simp)
  have htcalls : t.calls = [] := by simp [← ht]
  have htfault : t.fault.faulted = false := by simp [← ht, hfault]
  have htpc : t.pc.toNat = 0x200 := by simp [← ht, hpc]
  have hword : t.fetchWord = wordOfBytes hi lo := by rw [State.fetchWord, htpc, hhi, hlo]
  have hrun : step t = exec (decodeWord t.fetchWord) t :=
    ((hostCallsAreServedInOrder t).1 htcalls).trans (engineStep_of_fetch htfault (by omega))
  exact ⟨hword ▸ hrun, hhi, hlo⟩

end Sys2Proof.Machine
end

section
/-! ## Decoding and encoding
The decoder and the encoder are inverse on well-formed instructions. Two facts carry it: the encoding of what a word
decodes to is the word, and a word on a row of the opcode map decodes to that row's instruction
(spec/30_encoding.md R86-R101). -/

namespace Sys2Proof.Laws

/-! ### The encoding of a decoded word is the word -/

/-- A word of format A, when its top nibble is known (R84). -/
theorem addr_of_fieldT {w : Word} {t : Nibble} (ht : fieldT w = t) : t ++ fieldNNN w = w :=
  ht ▸ addr_of_fields w

/-- A word of format XK, when its top nibble is known (R84). -/
theorem byte_of_fieldT {w : Word} {t : Nibble} (ht : fieldT w = t) : t ++ fieldX w ++ fieldKK w = w :=
  ht ▸ byte_of_fields w

/-- A word of format XYN, when its top nibble is known (R84). -/
theorem regs_of_fieldT {w : Word} {t : Nibble} (ht : fieldT w = t) : t ++ fieldX w ++ fieldY w ++ fieldN w = w :=
  ht ▸ regs_of_fields w

/-- A word of format XS, whose low byte is a sub-opcode (R84). -/
theorem sub_of_fields {w : Word} {t : Nibble} {kk : Byte} (ht : fieldT w = t) (hkk : fieldKK w = kk) :
    t ++ fieldX w ++ kk = w :=
  hkk ▸ byte_of_fieldT ht

/-- A word of format XY, whose low nibble is a sub-opcode (R84). -/
theorem pair_of_fields {w : Word} {t n : Nibble} (ht : fieldT w = t) (hn : fieldN w = n) :
    t ++ fieldX w ++ fieldY w ++ n = w :=
  hn ▸ regs_of_fieldT ht

/-- A test of the decoder, when both its branches encode to the word. -/
theorem encode_ite {c : Prop} {_ : Decidable c} {i j : Instr} {w : Word} (hi : c → encode i = w)
    (hj : ¬ c → encode j = w) : encode (if c then i else j) = w := by
  split
  · next h => exact hi h
  · next h => exact hj h

theorem encode_decode0 (w : Word) : encode (decode0 w) = w :=
  encode_ite Eq.symm fun _ => encode_ite Eq.symm fun _ => rfl

theorem encode_decode5 {w : Word} (ht : fieldT w = 0x5#4) : encode (decode5 w) = w :=
  encode_ite (pair_of_fields ht) fun _ => rfl

theorem encode_decode9 {w : Word} (ht : fieldT w = 0x9#4) : encode (decode9 w) = w :=
  encode_ite (pair_of_fields ht) fun _ => rfl

theorem encode_decode8 {w : Word} (ht : fieldT w = 0x8#4) : encode (decode8 w) = w := by
  unfold decode8
  iterate 9 refine encode_ite (pair_of_fields ht) fun _ => ?_
  rfl

theorem encode_decodeE {w : Word} (ht : fieldT w = 0xE#4) : encode (decodeE w) = w :=
  encode_ite (sub_of_fields ht) fun _ => encode_ite (sub_of_fields ht) fun _ => rfl

theorem encode_decodeF {w : Word} (ht : fieldT w = 0xF#4) : encode (decodeF w) = w := by
  unfold decodeF
  iterate 9 refine encode_ite (sub_of_fields ht) fun _ => ?_
  rfl

/-- The last family: a nibble that is none of 0 to E. -/
theorem eq_F_of_not_mem : ∀ t : Nibble, t ∉ [0x0#4, 0x1#4, 0x2#4, 0x3#4, 0x4#4, 0x5#4, 0x6#4, 0x7#4, 0x8#4, 0x9#4,
    0xA#4, 0xB#4, 0xC#4, 0xD#4, 0xE#4] → t = 0xF#4 := by decide

/-- Encoding what a word decodes to gives the word back, whatever the word (R87, R101): one test of the dispatch after
another, as R86 lists the top nibbles. -/
theorem encode_decodeWord (w : Word) : encode (decodeWord w) = w := by
  refine encode_ite (fun _ => encode_decode0 w) fun _ => ?_
  iterate 2 refine encode_ite addr_of_fieldT fun _ => ?_
  iterate 2 refine encode_ite byte_of_fieldT fun _ => ?_
  refine encode_ite encode_decode5 fun _ => ?_
  iterate 2 refine encode_ite byte_of_fieldT fun _ => ?_
  refine encode_ite encode_decode8 fun _ => ?_
  refine encode_ite encode_decode9 fun _ => ?_
  iterate 2 refine encode_ite addr_of_fieldT fun _ => ?_
  refine encode_ite byte_of_fieldT fun _ => ?_
  refine encode_ite regs_of_fieldT fun _ => ?_
  refine encode_ite encode_decodeE fun _ => ?_
  exact encode_decodeF (eq_F_of_not_mem _ (by simp [*]))

/-! ### The row of a word -/

/-- A word of a row has the row's bits wherever the row's mask keeps them. -/
theorem extract_of_matches {r : OpcodeRow} {w : Word} (h : r.Matches w) {start len : Nat}
    (hm : r.mask.extractLsb' start len = BitVec.allOnes len) :
    w.extractLsb' start len = r.value.extractLsb' start len := by
  rw [← h, BitVec.extractLsb'_and, hm, BitVec.and_allOnes]

theorem fieldT_of_matches {r : OpcodeRow} {w : Word} (h : r.Matches w) (hm : fieldT r.mask = 0xF#4) :
    fieldT w = fieldT r.value := extract_of_matches h hm

theorem fieldN_of_matches {r : OpcodeRow} {w : Word} (h : r.Matches w) (hm : fieldN r.mask = 0xF#4) :
    fieldN w = fieldN r.value := extract_of_matches h hm

theorem fieldKK_of_matches {r : OpcodeRow} {w : Word} (h : r.Matches w) (hm : fieldKK r.mask = 0xFF#8) :
    fieldKK w = fieldKK r.value := extract_of_matches h hm

/-- A test of the decoder that two words share, when both its branches agree on the row. -/
theorem row_ite_congr {c : Prop} {_ : Decidable c} {i j i' j' : Instr} (hi : c → i.row = i'.row)
    (hj : ¬ c → j.row = j'.row) : (if c then i else j).row = (if c then i' else j').row := by
  split
  · next h => exact hi h
  · next h => exact hj h

theorem row_decode5_congr {w w' : Word} (hn : fieldN w = fieldN w') : (decode5 w).row = (decode5 w').row := by
  rw [decode5, decode5, hn]
  exact row_ite_congr (fun _ => rfl) fun _ => rfl

theorem row_decode9_congr {w w' : Word} (hn : fieldN w = fieldN w') : (decode9 w).row = (decode9 w').row := by
  rw [decode9, decode9, hn]
  exact row_ite_congr (fun _ => rfl) fun _ => rfl

theorem row_decode8_congr {w w' : Word} (hn : fieldN w = fieldN w') : (decode8 w).row = (decode8 w').row := by
  rw [decode8, decode8, hn]
  iterate 9 refine row_ite_congr (fun _ => rfl) fun _ => ?_
  rfl

theorem row_decodeE_congr {w w' : Word} (hkk : fieldKK w = fieldKK w') : (decodeE w).row = (decodeE w').row := by
  rw [decodeE, decodeE, hkk]
  iterate 2 refine row_ite_congr (fun _ => rfl) fun _ => ?_
  rfl

theorem row_decodeF_congr {w w' : Word} (hkk : fieldKK w = fieldKK w') : (decodeF w).row = (decodeF w').row := by
  rw [decodeF, decodeF, hkk]
  iterate 9 refine row_ite_congr (fun _ => rfl) fun _ => ?_
  rfl

/-- The row a word decodes to rests on its top nibble, and besides on the whole word in family 0, on n in the families
5, 8 and 9, on kk in the families E and F (R88-R93). -/
theorem row_decodeWord_congr {w w' : Word} (ht : fieldT w = fieldT w') (h0 : fieldT w' = 0x0#4 → w = w')
    (hn : fieldT w' ∈ [0x5#4, 0x8#4, 0x9#4] → fieldN w = fieldN w')
    (hkk : fieldT w' ∈ [0xE#4, 0xF#4] → fieldKK w = fieldKK w') : (decodeWord w).row = (decodeWord w').row := by
  rw [decodeWord, decodeWord, ht]
  refine row_ite_congr (fun h => by rw [h0 h]) fun _ => ?_
  iterate 4 refine row_ite_congr (fun _ => rfl) fun _ => ?_
  refine row_ite_congr (fun h => row_decode5_congr (hn (by simp [h]))) fun _ => ?_
  iterate 2 refine row_ite_congr (fun _ => rfl) fun _ => ?_
  refine row_ite_congr (fun h => row_decode8_congr (hn (by simp [h]))) fun _ => ?_
  refine row_ite_congr (fun h => row_decode9_congr (hn (by simp [h]))) fun _ => ?_
  iterate 4 refine row_ite_congr (fun _ => rfl) fun _ => ?_
  refine row_ite_congr (fun h => row_decodeE_congr (hkk (by simp [h]))) fun _ => ?_
  have hF : fieldT w' = 0xF#4 := eq_F_of_not_mem _ (by simp [*])
  exact row_decodeF_congr (hkk (by simp [hF]))

/-- The mask of each row keeps what its family decodes by (R87). -/
theorem mask_of_mem_opcodeMap : ∀ r ∈ opcodeMap, fieldT r.mask = 0xF#4 ∧
    (fieldT r.value = 0x0#4 → r.mask = 0xFFFF#16) ∧
    (fieldT r.value ∈ [0x5#4, 0x8#4, 0x9#4] → fieldN r.mask = 0xF#4) ∧
    (fieldT r.value ∈ [0xE#4, 0xF#4] → fieldKK r.mask = 0xFF#8) := by decide

/-- The word of a row with every operand 0 decodes to the row's instruction. -/
theorem row_decodeWord_value : ∀ r ∈ opcodeMap, (decodeWord r.value).row = some r := by decide

/-- A word of a row decodes to that row's instruction (R86), as the row's word with every operand 0 does. -/
theorem row_decodeWord_of_matches {r : OpcodeRow} {w : Word} (hr : r ∈ opcodeMap) (h : r.Matches w) :
    (decodeWord w).row = some r := by
  obtain ⟨hT, h0, hN, hKK⟩ := mask_of_mem_opcodeMap r hr
  have hword (hmask : r.mask = 0xFFFF#16) : w = r.value := by
    rw [← h, hmask]
    exact BitVec.and_allOnes.symm
  calc (decodeWord w).row
      = (decodeWord r.value).row :=
        row_decodeWord_congr (fieldT_of_matches h hT) (fun ht => hword (h0 ht))
          (fun ht => fieldN_of_matches h (hN ht)) fun ht => fieldKK_of_matches h (hKK ht)
    _ = some r := row_decodeWord_value r hr

/-! ### The row of an instruction -/

/-- Every instruction lies where `OnRow.Statement` says. -/
theorem onRow (i : Instr) : OnRow.Statement i := by
  cases i with
  | cls => exact OnRow.cls
  | ret => exact OnRow.ret
  | jp nnn => exact OnRow.jp nnn
  | call nnn => exact OnRow.call nnn
  | seByte x kk => exact OnRow.seByte x kk
  | sneByte x kk => exact OnRow.sneByte x kk
  | seReg x y => exact OnRow.seReg x y
  | ldByte x kk => exact OnRow.ldByte x kk
  | addByte x kk => exact OnRow.addByte x kk
  | ldReg x y => exact OnRow.ldReg x y
  | orReg x y => exact OnRow.orReg x y
  | andReg x y => exact OnRow.andReg x y
  | xorReg x y => exact OnRow.xorReg x y
  | addReg x y => exact OnRow.addReg x y
  | subReg x y => exact OnRow.subReg x y
  | shrReg x y => exact OnRow.shrReg x y
  | subnReg x y => exact OnRow.subnReg x y
  | shlReg x y => exact OnRow.shlReg x y
  | sneReg x y => exact OnRow.sneReg x y
  | ldI nnn => exact OnRow.ldI nnn
  | jpV0 nnn => exact OnRow.jpV0 nnn
  | rnd x kk => exact OnRow.rnd x kk
  | drw x y n => exact OnRow.drw x y n
  | skp x => exact OnRow.skp x
  | sknp x => exact OnRow.sknp x
  | ldVxDt x => exact OnRow.ldVxDt x
  | ldVxK x => exact OnRow.ldVxK x
  | ldDtVx x => exact OnRow.ldDtVx x
  | ldStVx x => exact OnRow.ldStVx x
  | addIVx x => exact OnRow.addIVx x
  | ldFVx x => exact OnRow.ldFVx x
  | ldBVx x => exact OnRow.ldBVx x
  | storeRegs x => exact OnRow.storeRegs x
  | loadRegs x => exact OnRow.loadRegs x
  | noop w => exact OnRow.noop w

theorem wellFormed_noop_iff (w : Word) : (Instr.noop w).WellFormed ↔ ∀ r ∈ opcodeMap, ¬ r.Matches w := by
  simp [Instr.WellFormed, Instr.wellFormed]

/-- Only a no-op has no row (R96). -/
theorem row_eq_none_iff (i : Instr) : i.row = none ↔ ∃ w, i = .noop w := by
  cases i <;> simp [Instr.row]

/-- The row of an instruction is a row of the map. -/
theorem row_mem_opcodeMap {i : Instr} {r : OpcodeRow} (h : i.row = some r) : r ∈ opcodeMap := by
  cases i with
  | noop w => cases h
  | _ =>
    cases h
    decide

/-- The word of an instruction that has a row lies on it. -/
theorem matches_encode_of_row {i : Instr} {r : OpcodeRow} (h : i.row = some r) : r.Matches (encode i) := by
  have hwf : i.WellFormed := by
    cases i with
    | noop w => cases h
    | _ => rfl
  simpa [OnRow.Statement, h] using onRow i hwf

/-- A word decodes to a row's instruction exactly when it lies on the row (R86). -/
theorem matches_iff_row_decodeWord {r : OpcodeRow} {w : Word} (hr : r ∈ opcodeMap) :
    r.Matches w ↔ (decodeWord w).row = some r := by
  refine ⟨row_decodeWord_of_matches hr, fun h => ?_⟩
  have hm := matches_encode_of_row h
  rwa [encode_decodeWord] at hm

/-- A word that decodes to a no-op is the word the no-op holds. -/
theorem eq_of_decodeWord_eq_noop {w w' : Word} (h : decodeWord w = .noop w') : w' = w := by
  have henc := encode_decodeWord w
  rwa [h] at henc

/-- A word of no row decodes to the no-op that holds it, and only such a word does (R96). -/
theorem matches_no_row_iff (w : Word) :
    (∀ r ∈ opcodeMap, ¬ r.Matches w) ↔ decodeWord w = .noop w := by
  constructor
  · intro hno
    cases hrow : (decodeWord w).row with
    | some r =>
      have hr := row_mem_opcodeMap hrow
      exact absurd ((matches_iff_row_decodeWord hr).2 hrow) (hno r hr)
    | none =>
      obtain ⟨w', hw'⟩ := (row_eq_none_iff _).1 hrow
      rw [hw', eq_of_decodeWord_eq_noop hw']
  · intro hnoop r hr hm
    have hrow := row_decodeWord_of_matches hr hm
    rw [hnoop] at hrow
    cases hrow

theorem wellFormed_decodeWord (w : Word) : (decodeWord w).WellFormed := by
  cases hi : decodeWord w with
  | noop w' =>
    obtain rfl := eq_of_decodeWord_eq_noop hi
    exact (wellFormed_noop_iff w').2 ((matches_no_row_iff w').2 hi)
  | _ => rfl

/-- The fields of a word put together from fields are those fields, so the decoder takes the branch of the
instruction's format and reads its operands back; a well-formed no-op holds a word of no row (R87, R95). -/
theorem decodeWord_encode {i : Instr} (h : i.WellFormed) : decodeWord (encode i) = i := by
  cases i with
  | cls | ret => rfl
  | jp | call | ldI | jpV0 | seByte | sneByte | ldByte | addByte | rnd | drw => simp [encode, decodeWord]
  | seReg | sneReg | ldReg | orReg | andReg | xorReg | addReg | subReg | shrReg | subnReg | shlReg =>
    simp [encode, decodeWord, decode5, decode8, decode9]
  | skp | sknp | ldVxDt | ldVxK | ldDtVx | ldStVx | addIVx | ldFVx | ldBVx | storeRegs | loadRegs =>
    simp [encode, decodeWord, decodeE, decodeF]
  | noop w => exact (matches_no_row_iff w).1 ((wellFormed_noop_iff w).1 h)

/-- Settles O1, which `decodeWord_encode` states. -/
theorem decodeEncodeRoundTrip : Obligations.DecodeEncodeRoundTrip := fun _ => decodeWord_encode

/-- Settles O2: an instruction with the word as its encoding is what the word decodes to, by O1. -/
theorem decoderIsTotalAndExact : Obligations.DecoderIsTotalAndExact := by
  refine fun w => ⟨wellFormed_decodeWord w, encode_decodeWord w, fun i hi hw => ?_⟩
  rw [← hw, decodeWord_encode hi]

/-- Settles O3: a word decodes to one instruction, so the rows it lies on are that instruction's one row. -/
theorem decoderFollowsOpcodeMap : Obligations.DecoderFollowsOpcodeMap := by
  refine ⟨fun w r hr r' hr' h h' => ?_, fun w r => matches_iff_row_decodeWord, matches_no_row_iff⟩
  have hrow := row_decodeWord_of_matches hr h
  rw [row_decodeWord_of_matches hr' h'] at hrow
  exact (Option.some.inj hrow).symm

/-- Settles O4: the decoder run on each sample. -/
theorem decodesSampleWords : Obligations.DecodesSampleWords := by
  unfold Obligations.DecodesSampleWords
  decide

end Sys2Proof.Laws
end

section
/-! ## The step: its completion, its pc and its fetch (spec/30_encoding.md R81, R82, R96, R101) -/

namespace Sys2Proof.Machine

theorem exec_completes (i : Instr) (s : State) : ∃ t, exec i s = .next t := by
  by_cases hf : FaultCondition i s
  · exact ⟨_, exec_of_faultCondition hf⟩
  · obtain ⟨t, he, _⟩ := exec_completes_onlyChanges hf
    exact ⟨t, he⟩

theorem engineStep_of_faulted {s : State} (h : s.fault.faulted = true) : engineStep s = .next s := if_pos h

/-- STEP outside FAULTED with pc + 1 outside memory takes FETCH_OOB, with no opcode (R81). -/
theorem engineStep_of_not_fetch {s : State} (hf : s.fault.faulted = false) (hpc : 4096 ≤ s.pc.toNat + 1) :
    engineStep s = .next (s.takeFault .fetchOob 0x0000#16 (s.pc.toNat : Int)) := by
  have hok : s.fetchOk = false := decide_eq_false (Nat.not_lt.2 hpc)
  simp [engineStep, hf, hok]

theorem engineStep_completes (s : State) : ∃ t, engineStep s = .next t := by
  cases hf : s.fault.faulted with
  | true => exact ⟨s, engineStep_of_faulted hf⟩
  | false =>
    rcases Nat.lt_or_ge (s.pc.toNat + 1) 4096 with hpc | hpc
    · rw [engineStep_of_fetch hf hpc]
      exact exec_completes _ s
    · exact ⟨_, engineStep_of_not_fetch hf hpc⟩

theorem execute_completes (dt : Nat) (s : State) : ∃ t, execute dt s = .next t := by
  obtain ⟨u, hu⟩ := engineStep_completes (s.accumulate dt).timerTick
  simp only [execute, hu]
  split
  · exact ⟨_, rfl⟩
  · exact ⟨_, rfl⟩

theorem serve_completes (c : HostCall) (s : State) : ∃ t, serve c s = .next t := by
  cases c with
  | execute dt => exact execute_completes dt s
  | step => exact engineStep_completes s
  | reset | load | writeKeypad | writeConfig | readFb | readStatus | subscribe => exact ⟨_, rfl⟩

/-- Settles O9: a step is a STEP or one host call. -/
theorem everyStepCompletes : Obligations.EveryStepCompletes := by
  refine ⟨fun s => ?_, exec_completes⟩
  cases hcalls : s.calls with
  | nil =>
    rw [(hostCallsAreServedInOrder s).1 hcalls]
    exact engineStep_completes s
  | cons c rest =>
    rw [step_of_calls_cons hcalls]
    exact serve_completes c _

/-- After a fetch below MEM_SIZE the post-increment pc is a + 2, unwrapped, or a while WAITING (R82). -/
theorem State.toNat_postPc {s : State} (hpc : s.pc.toNat + 1 < 4096) :
    s.postPc.toNat = if s.waiting then s.pc.toNat else s.pc.toNat + 2 := by
  unfold State.postPc
  split
  · rfl
  · rw [BitVec.toNat_add]
    simp only [BitVec.toNat_ofNat]
    omega

/-- An instruction that does not set pc itself and does not fault leaves pc where the pre-advance put it: nothing it
writes besides is pc. -/
theorem exec_pc_eq_postPc {i : Instr} {s : State} (hm : ¬ MovesPc i) (hf : ¬ FaultCondition i s) :
    ∃ t, exec i s = .next t ∧ t.pc = s.postPc := by
  cases i with
  | ret | jp | call | seByte | sneByte | seReg | sneReg | jpV0 | skp | sknp | ldVxK => exact absurd trivial hm
  | drw x y n =>
    obtain ⟨_, _, he⟩ := exec_drw_completes hf
    exact ⟨_, he, rfl⟩
  | ldBVx x => exact ⟨_, (exec_ldBVx_completes hf).2, rfl⟩
  | storeRegs x => exact ⟨_, (exec_storeRegs_completes hf).2, rfl⟩
  | loadRegs x => exact ⟨_, exec_loadRegs_completes hf, State.setRegs_pc _ _ _⟩
  | _ => exact ⟨_, rfl, rfl⟩

/-- Settles O7: the pre-advance does not wrap, and pc stays where it left it. -/
theorem preAdvanceSetsPc : Obligations.PreAdvanceSetsPc := by
  refine fun s hpc => ⟨State.toNat_postPc hpc, fun i hm hf => ?_⟩
  obtain ⟨t, he, ht⟩ := exec_pc_eq_postPc hm hf
  exact ⟨t, he, ht ▸ State.toNat_postPc hpc⟩

/-- Settles O26: the no-op is the pre-advance alone. -/
theorem unknownWordIsNoOp : Obligations.UnknownWordIsNoOp := fun w hno =>
  ⟨(Laws.matches_no_row_iff w).1 hno, fun s => ⟨_, rfl, rfl, preAdvance_onlyChanges s⟩⟩

/-- Settles O5: the instruction of the two bytes at pc is the one STEP fetches. -/
theorem stepRunsDecodedInstruction : Obligations.StepRunsDecodedInstruction := by
  intro s i hcalls hf hpc hdecode
  have hi : decodeWord s.fetchWord = i := congrArg Prod.fst (Except.ok.inj hdecode)
  rw [(hostCallsAreServedInOrder s).1 hcalls, serve, engineStep_of_fetch hf hpc, hi]

/-- The big-endian word of two bytes as a number (spec/20_memory.md R62). -/
theorem toNat_wordOfBytes (hi lo : Byte) : (wordOfBytes hi lo).toNat = 256 * hi.toNat + lo.toNat := by
  rw [wordOfBytes, BitVec.toNat_append, ← Nat.shiftLeft_add_eq_or_of_lt lo.isLt, Nat.shiftLeft_eq, Nat.mul_comm]

/-- Settles O6: the number 256 * high + low has one word, the fetched one. -/
theorem fetchReadsBigEndianOrFaults : Obligations.FetchReadsBigEndianOrFaults := by
  refine fun s => ⟨engineStep_of_faulted, fun hf hpc op hop => ?_, fun hf hpc => ?_⟩
  · have hword : op = s.fetchWord := BitVec.eq_of_toNat_eq (hop.trans (toNat_wordOfBytes _ _).symm)
    rw [hword]
    exact engineStep_of_fetch hf hpc
  · exact ⟨_, engineStep_of_not_fetch hf hpc, takeFault_faultsWith s _ _ _⟩

end Sys2Proof.Machine
end

section
/-! ## The screen: clearing it and drawing a sprite (spec/40_display.md R111-R115)
A draw is a chain of plots. Each part of the chain flips the pixels of a set once each and raises `hit` where one of
them was set (`Canvas.Xors`). Such parts compose where their sets do not meet, and a sprite is at most SCREEN_W columns
wide and SCREEN_H rows high, so that no two of its bits wrap to one pixel. -/

namespace Sys2Proof.Machine

/-- The canvas after every pixel of the set `P` has been XORed with 1, once: `hit` is raised where one was set. -/
structure Canvas.Xors (P : Fin Config.screenH → Fin Config.screenW → Prop) (cv cv' : Canvas) : Prop where
  flipped : ∀ r c, P r c → cv'.fb.pixel r c = !cv.fb.pixel r c
  kept : ∀ r c, ¬ P r c → cv'.fb.pixel r c = cv.fb.pixel r c
  hit_iff : cv'.hit = true ↔ cv.hit = true ∨ ∃ r c, P r c ∧ cv.fb.pixel r c = true

section
variable {P Q : Fin Config.screenH → Fin Config.screenW → Prop} {cv cv' cv'' : Canvas}

theorem Canvas.Xors.refl (cv : Canvas) (hP : ∀ r c, ¬ P r c) : cv.Xors P cv where
  flipped r c h := absurd h (hP r c)
  kept _ _ _ := rfl
  hit_iff := ⟨.inl, fun h => h.elim id fun ⟨r, c, hrc, _⟩ => absurd hrc (hP r c)⟩

theorem Canvas.Xors.congr (h : cv.Xors P cv') (hPQ : ∀ r c, P r c ↔ Q r c) : cv.Xors Q cv' := by
  have hPQ : P = Q := funext₂ fun r c => propext (hPQ r c)
  exact hPQ ▸ h

theorem Canvas.plot_xors (cv : Canvas) (row : Fin Config.screenH) (col : Fin Config.screenW) :
    cv.Xors (fun r c => r = row ∧ c = col) (cv.plot row col) where
  flipped := by
    rintro _ _ ⟨rfl, rfl⟩
    exact (plot_spec cv _ _ _ _).1.trans (if_pos ⟨rfl, rfl⟩)
  kept r c h := (plot_spec cv row r col c).1.trans (if_neg h)
  hit_iff := by
    rw [(plot_spec cv row row col col).2, Bool.or_eq_true]
    exact or_congr_right ⟨fun h => ⟨row, col, ⟨rfl, rfl⟩, h⟩, fun ⟨_, _, ⟨hr, hc⟩, h⟩ => hr ▸ hc ▸ h⟩

/-- Two draws in a row flip what either flips, when no pixel is flipped by both. -/
theorem Canvas.Xors.trans (h : cv.Xors P cv') (h' : cv'.Xors Q cv'') (hdisj : ∀ r c, P r c → ¬ Q r c) :
    cv.Xors (fun r c => P r c ∨ Q r c) cv'' where
  flipped r c hrc := hrc.elim (fun hP => (h'.kept r c (hdisj r c hP)).trans (h.flipped r c hP)) fun hQ =>
    (h'.flipped r c hQ).trans (congrArg _ (h.kept r c fun hP => hdisj r c hP hQ))
  kept r c hrc := (h'.kept r c fun hQ => hrc (.inr hQ)).trans (h.kept r c fun hP => hrc (.inl hP))
  hit_iff := by
    have hQ : ∀ r c, (Q r c ∧ cv'.fb.pixel r c = true) ↔ (Q r c ∧ cv.fb.pixel r c = true) := fun r c =>
      and_congr_right fun hQ => by rw [h.kept r c fun hP => hdisj r c hP hQ]
    simp only [h'.hit_iff, h.hit_iff, hQ, or_and_right, exists_or, or_assoc]

theorem Canvas.Xors.hit_eq_false (h : cv.Xors P cv') (hhit : cv.hit = false)
    (hclear : ∀ r c, P r c → cv.fb.pixel r c = false) : cv'.hit = false := by
  rw [← Bool.not_eq_true, h.hit_iff]
  rintro (hset | ⟨r, c, hP, hset⟩)
  · exact Bool.false_ne_true (hhit.symm.trans hset)
  · exact Bool.false_ne_true ((hclear r c hP).symm.trans hset)

end

/-- The pixels of one sprite row's set bits in the `k` columns from `c` on, at screen column `xs` and screen row
`py` (R113). -/
def RowCovers (xs : Nat) (py : Fin Config.screenH) (b : Byte) (c k : Nat)
    (row : Fin Config.screenH) (col : Fin Config.screenW) : Prop :=
  row = py ∧ ∃ j, c ≤ j ∧ j < c + k ∧ spriteBit b j = true ∧ (xs + j) % Config.screenW = col.val

/-- The first column and the columns right of it. -/
theorem rowCovers_succ_iff (xs : Nat) (py : Fin Config.screenH) (b : Byte) (c k : Nat)
    (row : Fin Config.screenH) (col : Fin Config.screenW) :
    RowCovers xs py b c (k + 1) row col ↔
      (spriteBit b c = true ∧ row = py ∧ col = wrapCol (xs + c)) ∨ RowCovers xs py b (c + 1) k row col := by
  constructor
  · rintro ⟨rfl, j, hj, hjk, hbit, hcol⟩
    rcases Nat.eq_or_lt_of_le hj with rfl | hlt
    · exact .inl ⟨hbit, rfl, Fin.ext hcol.symm⟩
    · exact .inr ⟨rfl, j, hlt, by omega, hbit, hcol⟩
  · rintro (⟨hbit, rfl, rfl⟩ | ⟨rfl, j, hj, hjk, hbit, hcol⟩)
    · exact ⟨rfl, c, le_rfl, by omega, hbit, rfl⟩
    · exact ⟨rfl, j, by omega, by omega, hbit, hcol⟩

/-- One sprite bit: its pixel is flipped where the bit is set. -/
theorem plot_if_xors (cv : Canvas) (bit : Bool) (row : Fin Config.screenH) (col : Fin Config.screenW) :
    cv.Xors (fun r c => bit = true ∧ r = row ∧ c = col) (if bit then cv.plot row col else cv) := by
  cases bit with
  | false => exact .refl cv fun _ _ h => Bool.false_ne_true h.1
  | true => exact (cv.plot_xors row col).congr fun _ _ => ⟨fun h => ⟨rfl, h⟩, And.right⟩

/-- Columns at most SCREEN_W in number wrap to different pixels, so each set bit flips its own. -/
theorem drawCols_xors (cv : Canvas) (xs : Nat) (py : Fin Config.screenH) (b : Byte) (c k : Nat)
    (hk : k ≤ Config.screenW) : cv.Xors (RowCovers xs py b c k) (cv.drawCols xs py b c k) := by
  induction k generalizing cv c with
  | zero => exact .refl cv fun _ _ ⟨_, _, hj, hlt, _⟩ => absurd hlt (Nat.not_lt.2 hj)
  | succ k ih =>
    refine ((plot_if_xors cv (spriteBit b c) py _).trans (ih _ (c + 1) (by omega)) ?_).congr
      fun row col => (rowCovers_succ_iff xs py b c k row col).symm
    rintro _ _ ⟨_, _, rfl⟩ ⟨_, j, hj, hjk, _, hcol⟩
    have hcol : (xs + j) % 64 = (xs + c) % 64 := hcol
    have hk : k + 1 ≤ 64 := hk
    omega

/-- The pixels of the set bits of the `k` sprite rows from the address `a` on, the first placed at (xs, ys): for the
sprite of a draw, `State.SpriteCovers`. -/
def SpriteCoversAt (m : Memory) (a xs ys k : Nat) (row : Fin Config.screenH) (col : Fin Config.screenW) : Prop :=
  ∃ r c : Nat, r < k ∧ c < 8 ∧ (m.read (a + r)).getLsbD (7 - c) = true ∧
    (ys + r) % Config.screenH = row.val ∧ (xs + c) % Config.screenW = col.val

theorem spriteCovers_iff (s : State) (x y n : Nibble) (row : Fin Config.screenH) (col : Fin Config.screenW) :
    s.SpriteCovers x y n row col ↔
      SpriteCoversAt s.mem s.i.toNat (s.reg x).toNat (s.reg y).toNat n.toNat row col := Iff.rfl

/-- The first sprite row and the rows below it. -/
theorem spriteCoversAt_succ_iff (m : Memory) (a xs ys k : Nat) (row : Fin Config.screenH) (col : Fin Config.screenW) :
    SpriteCoversAt m a xs ys (k + 1) row col ↔
      RowCovers xs (wrapRow ys) (m.read a) 0 Config.spriteW row col ∨
        SpriteCoversAt m (a + 1) xs (ys + 1) k row col := by
  constructor
  · rintro ⟨r, c, hr, hc, hbit, hrow, hcol⟩
    cases r with
    | zero => exact .inl ⟨Fin.ext hrow.symm, c, c.zero_le, by omega, hbit, hcol⟩
    | succ r =>
      rw [← Nat.add_assoc, Nat.add_right_comm] at hbit hrow
      exact .inr ⟨r, c, by omega, hc, hbit, hrow, hcol⟩
  · rintro (⟨rfl, c, _, hc, hbit, hcol⟩ | ⟨r, c, hr, hc, hbit, hrow, hcol⟩)
    · exact ⟨0, c, k.succ_pos, by omega, hbit, rfl, hcol⟩
    · rw [Nat.add_right_comm] at hbit hrow
      exact ⟨r + 1, c, by omega, hc, hbit, hrow, hcol⟩

/-- Rows at most SCREEN_H in number wrap to different pixel rows, so each sprite row flips its own pixels. -/
theorem drawRows_xors (cv : Canvas) (m : Memory) (a xs ys k : Nat) (hk : k ≤ Config.screenH) :
    cv.Xors (SpriteCoversAt m a xs ys k) (cv.drawRows xs ys (m.readBytes a k)) := by
  induction k generalizing cv a ys with
  | zero => exact .refl cv fun _ _ ⟨r, _, hr, _⟩ => absurd hr r.not_lt_zero
  | succ k ih =>
    refine ((drawCols_xors cv xs (wrapRow ys) (m.read a) 0 Config.spriteW (by decide)).trans
      (ih _ (a + 1) (ys + 1) (by omega)) ?_).congr fun row col => (spriteCoversAt_succ_iff m a xs ys k row col).symm
    rintro _ _ ⟨rfl, _⟩ ⟨r, _, hr, _, _, hrow, _⟩
    have hrow : (ys + 1 + r) % 32 = ys % 32 := hrow
    have hk : k + 1 ≤ 32 := hk
    omega

/-- A draw that does not fault flips the pixels its sprite covers, then writes the collision into VF, then issues the
draw event. -/
theorem exec_drw_xors {s : State} {x y n : Nibble} (hf : ¬ FaultCondition (.drw x y n) s) :
    ∃ cv : Canvas, Canvas.Xors (s.SpriteCovers x y n) ⟨s.fb, false⟩ cv ∧
      exec (.drw x y n) s = .next (({ s.preAdvance with fb := cv.fb }.setFlag cv.hit).notifyDraw) := by
  obtain ⟨cv, rfl, he⟩ := exec_drw_completes hf
  have hn : n.toNat < 16 := n.isLt
  have hrows : n.toNat ≤ Config.screenH := hn.le.trans (by decide)
  exact ⟨_, (drawRows_xors _ s.mem s.i.toNat _ _ _ hrows).congr fun r c => (spriteCovers_iff s x y n r c).symm, he⟩

/-- A frame that allows every pixel, when the pixels outside `Q` are known to be as before. -/
theorem OnlyChanges.pixels {P : Part → Prop} {Q : Fin Config.screenH → Fin Config.screenW → Prop} {s t : State}
    (h : OnlyChanges (fun p => (∃ r c, p = .pixel r c) ∨ P p) s t)
    (hkept : ∀ r c, ¬ Q r c → t.fb.pixel r c = s.fb.pixel r c) :
    OnlyChanges (fun p => (∃ r c, p = .pixel r c ∧ Q r c) ∨ P p) s t := by
  intro p hp
  by_cases hpix : ∃ r c, p = .pixel r c
  · obtain ⟨r, c, rfl⟩ := hpix
    exact hkept r c fun hQ => hp (.inl ⟨r, c, rfl, hQ⟩)
  · exact h p fun hor => hor.elim hpix fun hP => hp (.inr hP)

/-- Bit strings side by side as a number, the left one in the high bits. -/
theorem toNat_append_eq {m k : Nat} (a : BitVec m) (b : BitVec k) : (a ++ b).toNat = 2 ^ k * a.toNat + b.toNat := by
  rw [BitVec.toNat_append, ← Nat.shiftLeft_add_eq_or_of_lt b.isLt, Nat.shiftLeft_eq, Nat.mul_comm]

/-- A word of format XYN as a number (spec/30_encoding.md R84). -/
theorem toNat_regs (t x y n : Nibble) : (t ++ x ++ y ++ n : Word).toNat =
    0x1000 * t.toNat + 0x100 * x.toNat + 0x10 * y.toNat + n.toNat := by
  simp only [toNat_append_eq]
  omega

/-- The lowest address at or above MEM_SIZE among those from `a` on, as `FaultInfo` writes it (R264). -/
theorem max_eq_lowest_oob {a k : Nat} (hoob : 4096 ≤ a + k) (hlow : ∀ j, j < k → a + j < 4096) :
    max a 4096 = a + k := by
  cases k with
  | zero => omega
  | succ k =>
    have hbelow := hlow k k.lt_succ_self
    omega

/-- Settles O16: a completed draw is `Canvas.Xors` of the pixels the sprite covers; a fault is the table's. -/
theorem drawSprite : Obligations.DrawSprite := by
  refine fun s x y n => ⟨toNat_regs 0xD#4 x y n, fun hin => ?_, fun k hk hoob hlow => ?_⟩
  · have hf : ¬ FaultCondition (.drw x y n) s := fun ⟨k, hk, hoob⟩ => Nat.not_lt.2 hoob (hin k hk)
    obtain ⟨cv, hxors, he⟩ := exec_drw_xors hf
    obtain ⟨_, he', hframe⟩ := exec_completes_onlyChanges hf
    cases he.symm.trans he'
    have hvf : (({ s.preAdvance with fb := cv.fb }.setFlag cv.hit).notifyDraw).reg 0xF#4 = flagByte cv.hit :=
      State.reg_setReg_self _ regF _
    refine ⟨_, he, hxors.flipped, fun hset => ?_, fun hclear => ?_, rfl, rfl, rfl, ?_⟩
    · rw [hvf, hxors.hit_iff.2 (.inr hset)]
      rfl
    · rw [hvf, hxors.hit_eq_false rfl hclear]
      rfl
    · simp only [MayWrite, or_assoc] at hframe
      exact hframe.pixels hxors.kept
  · rw [← max_eq_lowest_oob hoob hlow]
    exact ⟨_, exec_of_faultCondition ⟨k, hk, hoob⟩, takeFault_faultsWith s _ _ _⟩

/-- Settles O17: a sprite of no rows covers no pixel. -/
theorem drawOfNoRows : Obligations.DrawOfNoRows := by
  intro s x y
  have hnone : ∀ r c, ¬ s.SpriteCovers x y 0x0#4 r c := fun _ _ ⟨r, _, hr, _⟩ => r.not_lt_zero hr
  obtain ⟨t, he, _, _, hclear, hdraws, hevents, hpc, hframe⟩ := (drawSprite s x y 0x0#4).2.1 fun k hk =>
    absurd hk k.not_lt_zero
  have hframe : OnlyChanges (fun p => p = .reg 0xF#4 ∨ p = .draws ∨ p = .events ∨ p = .pc) s t :=
    hframe.mono fun _ hp => hp.resolve_left fun ⟨r, c, _, hcov⟩ => hnone r c hcov
  have hfb : t.fb = s.fb := frame_ext fun r c => hframe (.pixel r c) (by simp)
  exact ⟨t, he, hfb, hclear fun r c h => absurd h (hnone r c), hdraws, hfb ▸ hevents, hpc, hframe⟩

/-- What a sprite covers is a matter of memory, I, Vx and Vy alone. -/
theorem spriteCovers_congr {s t : State} {x y : Nibble} (n : Nibble) (hmem : ∀ a, t.mem.read a = s.mem.read a)
    (hi : t.i = s.i) (hx : t.reg x = s.reg x) (hy : t.reg y = s.reg y) :
    t.SpriteCovers x y n = s.SpriteCovers x y n := by
  unfold State.SpriteCovers
  simp only [hmem, hi, hx, hy]

/-- Settles O18: the second draw covers the same pixels, and it meets a set one exactly where the first turned one
on. -/
theorem drawTwiceRestoresScreen : Obligations.DrawTwiceRestoresScreen := by
  intro s t x y n hin he hx hy
  obtain ⟨_, he', hflip, _, _, hdraws, _, _, hframe⟩ := (drawSprite s x y n).2.1 hin
  cases he.symm.trans he'
  have hi : t.i = s.i := hframe .i (by simp)
  have hcov := spriteCovers_congr n (fun a => hframe (.byte a) (by simp)) hi hx hy
  obtain ⟨u, hu, hflip', hset, hclear, hdraws', _, _, hframe'⟩ := (drawSprite t x y n).2.1 (hi ▸ hin)
  rw [hcov] at hflip' hset hclear hframe'
  have hkept : ∀ r c, ¬ s.SpriteCovers x y n r c → t.fb.pixel r c = s.fb.pixel r c := fun r c h =>
    hframe (.pixel r c) (by simpa using h)
  have hkept' : ∀ r c, ¬ s.SpriteCovers x y n r c → u.fb.pixel r c = t.fb.pixel r c := fun r c h =>
    hframe' (.pixel r c) (by simpa using h)
  refine ⟨u, hu, frame_ext fun r c => ?_, by rw [hdraws', hdraws], ?_, fun hnew => hclear fun r c h => ?_⟩
  · by_cases h : s.SpriteCovers x y n r c
    · rw [hflip' r c h, hflip r c h, Bool.not_not]
    · rw [hkept' r c h, hkept r c h]
  · rintro ⟨r, c, hoff, hon⟩
    have h : s.SpriteCovers x y n r c := by
      by_contra h
      simp [hkept r c h, hoff] at hon
    exact hset ⟨r, c, h, hon⟩
  · cases hs : s.fb.pixel r c with
    | true => rw [hflip r c h, hs, Bool.not_true]
    | false => exact hnew r c hs

/-- Settles O15: the frame is that of every completing instruction, and the black screen has no set pixel. -/
theorem clearScreen : Obligations.ClearScreen := by
  refine ⟨rfl, fun s => ?_⟩
  obtain ⟨t, he, hframe⟩ := exec_completes_onlyChanges (i := .cls) (s := s) id
  cases he
  simp only [MayWrite, or_assoc] at hframe
  exact ⟨_, rfl, pixel_black, rfl, rfl, rfl, hframe⟩

end Sys2Proof.Machine
end

section
/-! ## Control transfer: subroutines, jumps and skips (spec/41_control.md R130-R141)
A fault is the table's and a frame is the shared operation's, so each proof is about where pc and SP end. No target is
checked, so a bad one is found by the next fetch alone (R130). -/

namespace Sys2Proof.Machine

/-! ### Encodings as numbers (spec/30_encoding.md R84) -/

/-- A word of format A as a number. -/
theorem toNat_addr (t : Nibble) (nnn : Addr12) : (t ++ nnn : Word).toNat = 0x1000 * t.toNat + nnn.toNat :=
  toNat_append_eq t nnn

/-- A word of format XK as a number. -/
theorem toNat_byte (t x : Nibble) (kk : Byte) : (t ++ x ++ kk : Word).toNat =
    0x1000 * t.toNat + 0x100 * x.toNat + kk.toNat := by
  simp only [toNat_append_eq]
  omega

/-! ### Subroutines -/

/-- An instruction under its fault condition makes a fault entry, with INFO as its table row gives it (R261). -/
theorem exec_faultsWith {i : Instr} {s : State} {info : Int} (hf : FaultCondition i s) (hinfo : FaultInfo i s = info) :
    ∃ t, exec i s = .next t ∧ FaultsWith (FaultCause i) (encode i) info s t :=
  ⟨_, exec_of_faultCondition hf, hinfo ▸ takeFault_faultsWith s _ _ _⟩

theorem State.spInt_of_sp {s : State} {k : Fin Config.stackDepth} (h : s.sp = some k) : s.spInt = k.val := by
  simp [spInt, h]

theorem toNat_zext16 (nnn : Addr12) : (zext16 nnn).toNat = nnn.toNat :=
  BitVec.toNat_setWidth_of_le (by decide)

/-- Settles O19: RET is a pop and a jump to what it gives. -/
theorem returnFromSubroutine : Obligations.ReturnFromSubroutine := by
  refine ⟨rfl, fun s k hsp => ?_, fun s hempty => exec_faultsWith (i := .ret) hempty hempty⟩
  have hf : ¬ FaultCondition .ret s := fun hempty => by
    have hk : (k.val : Int) = -1 := (State.spInt_of_sp hsp).symm.trans hempty
    omega
  obtain ⟨ret, t, hpop, he⟩ := exec_ret_completes hf
  obtain ⟨k', hk', hret, hdown, hframe⟩ := pop_spec hpop
  cases hsp.symm.trans hk'
  exact ⟨_, he, hret, hdown, (hframe.afterPreAdvance.thenJump ret).mono fun _ => Or.symm⟩

/-- Settles O20: CALL is a push of the post-increment pc and a jump. -/
theorem callSubroutine : Obligations.CallSubroutine := by
  refine fun s nnn => ⟨toNat_addr 0x2#4 nnn, fun hroom => ?_, fun hfull =>
    exec_faultsWith (i := .call nnn) hfull hfull⟩
  have hf : ¬ FaultCondition (.call nnn) s := hroom.ne
  obtain ⟨t, hpush, he⟩ := exec_call_completes hf
  obtain ⟨k, hsp, hk, hentry, hframe⟩ := push_spec hpush
  exact ⟨_, he, toNat_zext16 nnn, k, hk, hsp, hentry, (hframe.afterPreAdvance.thenJump _).mono fun _ => Or.symm⟩

/-- Settles O21: the return reads the entry the call wrote, which holds the post-increment pc, and lowers the SP the
call raised. -/
theorem callThenReturnResumes : Obligations.CallThenReturnResumes := by
  intro s nnn hwait hroom
  obtain ⟨t, hcall, _, k, hk, hsp, hentry, hframe⟩ := (callSubroutine s nnn).2.1 hroom
  obtain ⟨u, hret, hpc, hdown, hframe'⟩ := returnFromSubroutine.2.1 t k hsp
  have hpost : s.postPc = s.pc + 2#16 := by simp [State.postPc, hwait]
  refine ⟨t, u, hcall, hret, hpc.trans (hentry.trans hpost), ?_, (hframe.trans hframe').mono ?_⟩
  · rw [hdown, State.spInt_of_sp hsp, hk, Int.add_sub_cancel]
  · rintro p (hp | hp)
    · exact hp.imp_right (Or.imp_right fun h => ⟨k, h, hk⟩)
    · exact hp.imp_right .inl

/-! ### Jumps -/

/-- After a change of pc alone, a pc at or above 0xFFF faults FETCH_OOB at the next STEP (R130). -/
theorem OnlyChanges.next_fetch_faults {s t : State} (h : OnlyChanges (· = .pc) s t) (hf : s.fault.faulted = false)
    (hpc : 4095 ≤ t.pc.toNat) :
    ∃ u, serve .step t = .next u ∧ FaultsWith .fetchOob 0x0000#16 (t.pc.toNat : Int) t u := by
  have hfault : t.fault = s.fault := h .fault nofun
  exact (fetchReadsBigEndianOrFaults t).2.2 (hfault ▸ hf) (Nat.succ_le_succ hpc)

/-- The target of Bnnn does not wrap (R141). -/
theorem State.toNat_offsetTarget (s : State) (nnn : Addr12) :
    (s.offsetTarget nnn).toNat = nnn.toNat + (s.reg 0x0#4).toNat := by
  have hv := (s.reg 0x0#4).isLt
  have hn := nnn.isLt
  simp only [offsetTarget, BitVec.toNat_add, BitVec.toNat_setWidth]
  omega

/-- Settles O22: the jump to nnn, taken as a 16-bit word. -/
theorem jumpToAddress : Obligations.JumpToAddress := fun s nnn =>
  have hframe := jump_onlyChanges s (zext16 nnn)
  ⟨toNat_addr 0x1#4 nnn, _, rfl, toNat_zext16 nnn, hframe, hframe.next_fetch_faults⟩

/-- Settles O23: the jump to the target of R140. -/
theorem jumpWithOffset : Obligations.JumpWithOffset := fun s nnn =>
  have hframe := jump_onlyChanges s (s.offsetTarget nnn)
  ⟨toNat_addr 0xB#4 nnn, _, rfl, s.toNat_offsetTarget nnn, s.toNat_offsetTarget_le nnn, hframe,
    hframe.next_fetch_faults⟩

/-! ### Skips -/

/-- A skip after the pre-advance changes pc alone. -/
theorem skip_onlyChanges (s : State) (test : Bool) : OnlyChanges (· = .pc) s (s.preAdvance.skipIf test) :=
  (skipIf_onlyChanges s.preAdvance test).afterPreAdvance.mono fun _ => or_self_iff.1

/-- A skip on equal bytes, with the test on their values. -/
theorem skip_eq_pc (s : State) (a b : Byte) : (s.preAdvance.skipIf (decide (a = b))).pc =
    if a.toNat = b.toNat then s.postPc + 2#16 else s.postPc := by
  simp [BitVec.toNat_inj]

/-- A skip on different bytes, with the test on their values. -/
theorem skip_ne_pc (s : State) (a b : Byte) : (s.preAdvance.skipIf (decide (a ≠ b))).pc =
    if a.toNat = b.toNat then s.postPc else s.postPc + 2#16 := by
  simp [BitVec.toNat_inj]

/-- Settles O24: both instructions are a skip on Vx and kk, with opposite tests. -/
theorem skipOnByte : Obligations.SkipOnByte := fun s x kk =>
  have hframe := skip_onlyChanges s
  ⟨toNat_byte 0x3#4 x kk, toNat_byte 0x4#4 x kk,
    ⟨_, rfl, skip_eq_pc s _ _, hframe _, (hframe _).next_fetch_faults⟩,
    ⟨_, rfl, skip_ne_pc s _ _, hframe _, (hframe _).next_fetch_faults⟩⟩

/-- A word of family 0x5 or 0x9, given as a number by its four nibbles, is a no-op when the low one is not 0 (R89). -/
theorem decodeWord_eq_noop_of_low_nibble {t x y n : Nibble} {w : Word} (ht : t = 0x5#4 ∨ t = 0x9#4) (hn : n ≠ 0x0#4)
    (hw : w.toNat = 0x1000 * t.toNat + 0x100 * x.toNat + 0x10 * y.toNat + n.toNat) : decodeWord w = .noop w := by
  obtain rfl : w = t ++ x ++ y ++ n := BitVec.eq_of_toNat_eq (hw.trans (toNat_regs t x y n).symm)
  rcases ht with rfl | rfl
  · simp [decodeWord, decode5, hn]
  · simp [decodeWord, decode9, hn]

/-- Settles O25: both instructions are a skip on Vx and Vy, with opposite tests. -/
theorem skipOnRegisters : Obligations.SkipOnRegisters := fun s x y =>
  have hframe := skip_onlyChanges s
  ⟨toNat_regs 0x5#4 x y 0x0#4, toNat_regs 0x9#4 x y 0x0#4,
    fun _ _ hn hw => hw.elim (decodeWord_eq_noop_of_low_nibble (.inl rfl) hn)
      (decodeWord_eq_noop_of_low_nibble (.inr rfl) hn),
    ⟨_, rfl, skip_eq_pc s _ _, hframe _⟩, ⟨_, rfl, skip_ne_pc s _ _, hframe _⟩⟩

end Sys2Proof.Machine
end

section
/-! ## Register loads and the ALU (spec/42_alu.md R161-R175)
No instruction here faults. Each is the pre-advance and then one write, a register or a result and VF; Cxkk takes its
draw in between. What the registers hold after it and its frame are facts about that write, so each proof adds what the
instruction computes. -/

namespace Sys2Proof.Machine

/-! ### The two writes -/

theorem preAdvance_setReg_onlyChanges (s : State) (x : Nibble) (b : Byte) :
    OnlyChanges (fun p => p = .reg x ∨ p = .pc) s (s.preAdvance.setReg x b) :=
  (setReg_onlyChanges s.preAdvance x b).afterPreAdvance

theorem preAdvance_setResult_onlyChanges (s : State) (x : Nibble) (b : Byte) (flag : Bool) :
    OnlyChanges (fun p => p = .reg x ∨ p = .reg 0xF#4 ∨ p = .pc) s (s.preAdvance.setResult x b flag) :=
  (setResult_onlyChanges s.preAdvance x b flag).afterPreAdvance.mono fun _ => or_assoc.1

/-- The result is kept unless the flag overwrites it (R42). -/
theorem State.reg_setResult_self (s : State) {x : Nibble} (b : Byte) (flag : Bool) (hx : x ≠ 0xF#4) :
    (s.setResult x b flag).reg x = b := by
  have hx : x ≠ regF := hx
  simp [State.reg_setResult, hx]

/-- VF as a number after a flag is written (R41, R42). -/
theorem State.toNat_reg_setResult_flag (s : State) (x : Nibble) (b : Byte) (flag : Bool) :
    ((s.setResult x b flag).reg 0xF#4).toNat = flag.toNat := by
  have hflag : (s.setResult x b flag).reg 0xF#4 = flagByte flag := State.reg_setReg_self _ regF _
  rw [hflag, toNat_flagByte, Bool.toNat, Bool.cond_eq_ite]

/-! ### What is computed -/

/-- A word of family 0x8 as a number (spec/30_encoding.md R84). -/
theorem toNat_family8 (x y n : Nibble) : (0x8#4 ++ x ++ y ++ n : Word).toNat =
    0x8000 + n.toNat + 0x100 * x.toNat + 0x10 * y.toNat := by
  rw [toNat_regs, BitVec.toNat_ofNat]
  omega

theorem toNat_carryOut (a b : Byte) : (carryOut a b).toNat = if 255 < a.toNat + b.toNat then 1 else 0 :=
  Bool.cond_decide _ 1 0

theorem toNat_strictlyGreater (a b : Byte) : (strictlyGreater a b).toNat = if b.toNat < a.toNat then 1 else 0 :=
  Bool.cond_decide _ 1 0

theorem toNat_lowBitOut (b : Byte) : (lowBitOut b).toNat = b.toNat % 2 := by
  rw [lowBitOut, BitVec.getLsbD, Nat.toNat_testBit, Nat.pow_zero, Nat.div_one]

theorem toNat_highBitOut (b : Byte) : (highBitOut b).toNat = b.toNat / 128 := by
  have hb := b.isLt
  rw [highBitOut, BitVec.getLsbD, Nat.toNat_testBit]
  omega

/-- A difference wraps as the integer one does modulo 256. -/
theorem toNat_sub_eq_emod (a b : Byte) : ((a - b).toNat : Int) = (a.toNat - b.toNat : Int) % 256 := by
  have hb := b.isLt
  rw [BitVec.toNat_sub]
  omega

theorem toNat_shiftRight_one (b : Byte) : (b >>> 1).toNat = b.toNat / 2 := by
  rw [BitVec.toNat_ushiftRight, Nat.shiftRight_one]

theorem toNat_shiftLeft_one (b : Byte) : (b <<< 1).toNat = 2 * b.toNat % 256 := by
  rw [BitVec.toNat_shiftLeft, Nat.shiftLeft_eq, Nat.mul_comm]

/-! ### Instructions that write one register -/

/-- Settles O27: the register written reads back. -/
theorem loadByte : Obligations.LoadByte := fun s x kk =>
  ⟨toNat_byte 0x6#4 x kk, _, rfl, State.reg_setReg_self _ x _, rfl, preAdvance_setReg_onlyChanges s x _⟩

/-- Settles O28: the sum of two bytes wraps at 256. -/
theorem addByteWithoutFlag : Obligations.AddByteWithoutFlag := fun s x kk =>
  ⟨toNat_byte 0x7#4 x kk, _, rfl, by rw [State.reg_setReg_self, BitVec.toNat_add], rfl,
    preAdvance_setReg_onlyChanges s x _⟩

/-- Settles O29: the register written reads back. -/
theorem copyRegister : Obligations.CopyRegister := fun s x y =>
  ⟨toNat_family8 x y 0x0#4, _, rfl, State.reg_setReg_self _ x _, rfl, preAdvance_setReg_onlyChanges s x _⟩

/-- Settles O30: the three bitwise operations on bytes, bit by bit. -/
theorem bitwiseOperations : Obligations.BitwiseOperations := fun s x y =>
  have hframe := preAdvance_setReg_onlyChanges s x
  ⟨toNat_family8 x y 0x1#4, toNat_family8 x y 0x2#4, toNat_family8 x y 0x3#4,
    ⟨_, rfl, fun k => by rw [State.reg_setReg_self, BitVec.getLsbD_or], rfl, hframe _⟩,
    ⟨_, rfl, fun k => by rw [State.reg_setReg_self, BitVec.getLsbD_and], rfl, hframe _⟩,
    ⟨_, rfl, fun k => by rw [State.reg_setReg_self, BitVec.getLsbD_xor], rfl, hframe _⟩⟩

/-- Settles O36: the draw is taken after the pre-advance, and the mask of it is the one register written. -/
theorem randomByteMasked : Obligations.RandomByteMasked := by
  refine fun s x kk => ⟨toNat_byte 0xC#4 x kk, ?_⟩
  obtain ⟨t, he, hframe⟩ := exec_completes_onlyChanges (i := .rnd x kk) (s := s) id
  cases he
  refine ⟨_, rfl, fun k => ?_, rfl, rfl, hframe.mono fun _ => or_assoc.1⟩
  rw [State.reg_setReg_self, BitVec.getLsbD_and]
  rfl

/-! ### Instructions that write a result and VF -/

/-- Settles O31: the flag is the carry of the unwrapped sum. -/
theorem addWithCarryOut : Obligations.AddWithCarryOut := fun s x y =>
  ⟨toNat_family8 x y 0x4#4, _, rfl, fun hx => by rw [State.reg_setResult_self _ _ _ hx, BitVec.toNat_add],
    by rw [State.toNat_reg_setResult_flag, toNat_carryOut], rfl, preAdvance_setResult_onlyChanges s x _ _⟩

/-- Settles O32: the flag is the strict comparison, with Vx as the minuend. -/
theorem subtractWithStrictFlag : Obligations.SubtractWithStrictFlag := fun s x y =>
  ⟨toNat_family8 x y 0x5#4, _, rfl, fun hx => by rw [State.reg_setResult_self _ _ _ hx, toNat_sub_eq_emod],
    by rw [State.toNat_reg_setResult_flag, toNat_strictlyGreater], rfl, preAdvance_setResult_onlyChanges s x _ _⟩

/-- Settles O33: the flag is the strict comparison, with Vy as the minuend. -/
theorem reverseSubtractWithStrictFlag : Obligations.ReverseSubtractWithStrictFlag := fun s x y =>
  ⟨toNat_family8 x y 0x7#4, _, rfl, fun hx => by rw [State.reg_setResult_self _ _ _ hx, toNat_sub_eq_emod],
    by rw [State.toNat_reg_setResult_flag, toNat_strictlyGreater], rfl, preAdvance_setResult_onlyChanges s x _ _⟩

/-- Settles O34: the source is `State.shrSource`, and the flag its low bit. -/
theorem shiftRightByToggle : Obligations.ShiftRightByToggle := by
  rintro s x y _ rfl
  exact ⟨toNat_family8 x y 0x6#4, _, rfl,
    fun hx => by rw [State.reg_setResult_self _ _ _ hx, toNat_shiftRight_one, State.shrSource],
    by rw [State.toNat_reg_setResult_flag, toNat_lowBitOut, State.shrSource], rfl,
    preAdvance_setResult_onlyChanges s x _ _⟩

/-- Settles O35: the source is `State.shlSource`, and the flag its high bit. -/
theorem shiftLeftByToggle : Obligations.ShiftLeftByToggle := by
  rintro s x y _ rfl
  exact ⟨toNat_family8 x y 0xE#4, _, rfl,
    fun hx => by rw [State.reg_setResult_self _ _ _ hx, toNat_shiftLeft_one, State.shlSource],
    by rw [State.toNat_reg_setResult_flag, toNat_highBitOut, State.shlSource], rfl,
    preAdvance_setResult_onlyChanges s x _ _⟩

end Sys2Proof.Machine
end

section
/-! ## The address register, and stores and loads through it (spec/43_index_memory.md R200-R206)
Annn, Fx1E and Fx29 are the pre-advance and a write of I. Fx33, Fx55 and Fx65 check their bounds before any access, so
each proof has a completion, which adds what the bytes or registers hold to the frame of every completing instruction,
and the table's fault. -/

namespace Sys2Proof.Machine

/-- A word of family 0xF as a number (spec/30_encoding.md R84). -/
theorem toNat_familyF (x : Nibble) (kk : Byte) : (0xF#4 ++ x ++ kk : Word).toNat =
    0xF000 + kk.toNat + 0x100 * x.toNat := by
  rw [toNat_byte, BitVec.toNat_ofNat]
  omega

/-! ### Instructions that write I -/

theorem preAdvance_withI_onlyChanges (s : State) (w : Word) :
    OnlyChanges (fun p => p = .i ∨ p = .pc) s { s.preAdvance with i := w } :=
  (withI_onlyChanges s.preAdvance w).afterPreAdvance

theorem toNat_zext16_byte (b : Byte) : (zext16 b).toNat = b.toNat :=
  BitVec.toNat_setWidth_of_le (by decide)

/-- Five times a byte does not wrap at 16 bits (R203). -/
theorem toNat_glyphAddr (b : Byte) : (glyphAddr b).toNat = 5 * b.toNat := by
  have hb := b.isLt
  have hfive : (BitVec.ofNat 16 Config.glyphBytes).toNat = 5 := rfl
  rw [glyphAddr, BitVec.toNat_mul, toNat_zext16_byte, hfive]
  omega

/-- Settles O37: the address is taken as a 16-bit word. -/
theorem setAddressRegister : Obligations.SetAddressRegister := fun s nnn =>
  ⟨toNat_addr 0xA#4 nnn, _, rfl, toNat_zext16 nnn, rfl, preAdvance_withI_onlyChanges s _⟩

/-- Settles O38: the sum of two words wraps at 65536. -/
theorem addToAddressRegister : Obligations.AddToAddressRegister := fun s x =>
  ⟨toNat_familyF x 0x1E#8, _, rfl, by rw [BitVec.toNat_add, toNat_zext16_byte], rfl,
    preAdvance_withI_onlyChanges s _⟩

/-- Settles O39: the glyph address does not wrap. -/
theorem addressOfGlyph : Obligations.AddressOfGlyph := fun s x =>
  ⟨toNat_familyF x 0x29#8, _, rfl, toNat_glyphAddr (s.reg x), rfl, preAdvance_withI_onlyChanges s _⟩

/-! ### Instructions that store and load at I -/

/-- A stored byte reads back at its place. -/
theorem State.read_storeBytes (s : State) (a : Nat) (bs : List Byte) {k : Nat} (hk : k < bs.length) :
    (s.storeBytes a bs).mem.read (a + k) = bs[k] := by
  rw [storeBytes_mem, Memory.read_writeBytes, dif_pos (by omega)]
  simp only [Nat.add_sub_cancel_left]

/-- Registers written from V0 on read back. -/
theorem State.reg_setRegs_zero (s : State) {bs : List Byte} {y : Nibble} (hlen : bs.length ≤ 16)
    (hy : y.toNat < bs.length) : (s.setRegs 0 bs).reg y = bs[y.toNat] := by
  rw [reg_setRegs s 0 bs y (by omega), dif_pos (by omega)]
  rfl

/-- The stored digits of a byte as numbers: each fits a byte (R204). -/
theorem State.toNat_read_storeBytes_bcdDigits (s : State) (a : Nat) (b : Byte) :
    ((s.storeBytes a (bcdDigits b)).mem.read a).toNat = b.toNat / 100 ∧
    ((s.storeBytes a (bcdDigits b)).mem.read (a + 1)).toNat = b.toNat / 10 % 10 ∧
    ((s.storeBytes a (bcdDigits b)).mem.read (a + 2)).toNat = b.toNat % 10 := by
  have hb := b.isLt
  have hread {k : Nat} (hk : k < 3) := s.read_storeBytes a (bcdDigits b) hk
  have hhundreds : (s.storeBytes a (bcdDigits b)).mem.read a = _ := hread (k := 0) (by decide)
  rw [hhundreds, hread (k := 1) (by decide), hread (k := 2) (by decide)]
  simp only [bcdDigits, List.getElem_cons_zero, List.getElem_cons_succ, BitVec.toNat_ofNat]
  omega

/-- With the last byte of V0 to Vx in memory, every one is: Fx55 and Fx65 do not fault. -/
theorem not_regs_oob {s : State} {x : Nibble} (hin : s.i.toNat + x.toNat < 4096) :
    ¬ ∃ k, k ≤ x.toNat ∧ 4096 ≤ s.i.toNat + k := by
  rintro ⟨k, hk, hoob⟩
  omega

/-- Settles O40: the digits are stored in order at I, and the highest of the three addresses decides the fault. -/
theorem storeDecimalDigits : Obligations.StoreDecimalDigits := by
  refine fun s x => ⟨toNat_familyF x 0x33#8, fun hin => ?_, fun hoob =>
    exec_faultsWith (i := .ldBVx x) ⟨2, by decide, hoob⟩ rfl⟩
  have hf : ¬ FaultCondition (.ldBVx x) s := fun ⟨k, hk, hoob⟩ => by omega
  obtain ⟨_, he⟩ := exec_ldBVx_completes hf
  obtain ⟨_, he', hframe⟩ := exec_completes_onlyChanges hf
  cases he.symm.trans he'
  obtain ⟨hhundreds, htens, hones⟩ := s.preAdvance.toNat_read_storeBytes_bcdDigits (s.effAddr 0) (s.reg x)
  exact ⟨_, he, hhundreds, htens, hones, rfl, hframe⟩

/-- Settles O41: byte y of those stored at I is Vy, and the highest address decides the fault. -/
theorem storeRegistersAtI : Obligations.StoreRegistersAtI := by
  refine fun s x => ⟨toNat_familyF x 0x55#8, fun hin => ?_, fun hoob =>
    exec_faultsWith (i := .storeRegs x) ⟨x.toNat, le_rfl, hoob⟩ rfl⟩
  have hf : ¬ FaultCondition (.storeRegs x) s := not_regs_oob hin
  obtain ⟨_, he⟩ := exec_storeRegs_completes hf
  obtain ⟨_, he', hframe⟩ := exec_completes_onlyChanges hf
  cases he.symm.trans he'
  refine ⟨_, he, fun y hy => ?_, rfl, hframe⟩
  have hlen : y.toNat < (s.regsTo x).length := by rwa [length_regsTo, Nat.lt_succ_iff]
  have hread := s.preAdvance.read_storeBytes (s.effAddr 0) (s.regsTo x) hlen
  rwa [getElem_regsTo, BitVec.ofNat_toNat, BitVec.setWidth_eq] at hread

/-- Settles O42: byte y of those read at I goes to Vy, and the highest address decides the fault. -/
theorem loadRegistersFromI : Obligations.LoadRegistersFromI := by
  refine fun s x => ⟨toNat_familyF x 0x65#8, fun hin => ?_, fun hoob =>
    exec_faultsWith (i := .loadRegs x) ⟨x.toNat, le_rfl, hoob⟩ rfl⟩
  have hf : ¬ FaultCondition (.loadRegs x) s := not_regs_oob hin
  have he := exec_loadRegs_completes hf
  obtain ⟨_, he', hframe⟩ := exec_completes_onlyChanges hf
  cases he.symm.trans he'
  refine ⟨_, he, fun y hy => ?_, State.setRegs_pc _ _ _, hframe⟩
  have hlen := s.mem.length_readBytes (s.effAddr 0) (x.toNat + 1)
  rw [State.reg_setRegs_zero _ (hlen.trans_le x.isLt) (by omega), Memory.getElem_readBytes]
  rfl

end Sys2Proof.Machine
end

section
/-! ## The keypad and the timers (spec/44_keys_timers.md R230-R238)
Ex9E and ExA1 are a skip on one bit of KEYPAD, and the timer transfers one write after the pre-advance. Fx0A first gets
one equation per phase, with pc where that phase leaves it; a phase's frame is then that of the writes it makes. -/

namespace Sys2Proof.Machine

/-- A word of family 0xE as a number (spec/30_encoding.md R84). -/
theorem toNat_familyE (x : Nibble) (kk : Byte) : (0xE#4 ++ x ++ kk : Word).toNat =
    0xE000 + kk.toNat + 0x100 * x.toNat := by
  rw [toNat_byte, BitVec.toNat_ofNat]
  omega

/-! ### Skips on a key -/

/-- A skip on the negation of a test. -/
theorem skip_not_pc (s : State) (test : Bool) : (s.preAdvance.skipIf (!test)).pc =
    if test then s.postPc else s.postPc + 2#16 := by
  cases test <;> rfl

/-- Settles O43: with Vx a key's number both are a skip on that key, with opposite tests; otherwise the fault is the
table's. -/
theorem skipOnKey : Obligations.SkipOnKey := by
  refine fun s x => ⟨toNat_familyE x 0x9E#8, toNat_familyE x 0xA1#8, fun hkey => ?_, fun hbad =>
    ⟨exec_faultsWith (i := .skp x) hbad rfl, exec_faultsWith (i := .sknp x) hbad rfl⟩⟩
  have hf : ¬ 15 < (s.reg x).toNat := hkey.not_gt
  exact ⟨⟨_, exec_skp_completes hf, State.skipIf_pc _ _, skip_onlyChanges s _⟩,
    ⟨_, exec_sknp_completes hf, skip_not_pc s _, skip_onlyChanges s _⟩⟩

/-! ### Timer transfers -/

/-- Settles O44: each is the pre-advance and one write. -/
theorem timerTransfers : Obligations.TimerTransfers := fun s x =>
  ⟨toNat_familyF x 0x07#8, toNat_familyF x 0x15#8, toNat_familyF x 0x18#8,
    ⟨_, rfl, State.reg_setReg_self _ x _, rfl, preAdvance_setReg_onlyChanges s x _⟩,
    ⟨_, rfl, rfl, rfl, (withDt_onlyChanges s.preAdvance _).afterPreAdvance⟩,
    ⟨_, rfl, rfl, rfl, (withSt_onlyChanges s.preAdvance _).afterPreAdvance⟩⟩

/-! ### The scan of the keys -/

/-- With no key pressed the scan keeps the value it started from (R234). -/
theorem scanKeys_zero (found : Byte) (count : Nat) : scanKeys 0#16 found 0 count = found := by
  rcases scanKeys_spec 0#16 found 0 count with ⟨j, _, _, hj, _⟩ | ⟨_, hscan⟩
  · simp at hj
  · exact hscan

/-- The scan of the whole keypad gives the highest pressed key (R235). -/
theorem scanKeys_highest {keypad : Word} (found : Byte) {k : Nat} (hk : k < Config.numKeys)
    (hdown : keypad.getLsbD k = true) (hmax : ∀ j, k < j → j < Config.numKeys → keypad.getLsbD j = false) :
    scanKeys keypad found 0 Config.numKeys = BitVec.ofNat 8 k := by
  rcases scanKeys_spec keypad found 0 Config.numKeys with ⟨j, _, hj, hjdown, hjmax, hscan⟩ | ⟨hnone, _⟩
  · rcases Nat.lt_trichotomy j k with hlt | rfl | hgt
    · simp [hjmax k hlt (by omega)] at hdown
    · exact hscan
    · simp [hmax j hgt (by omega)] at hjdown
  · simp [hnone k k.zero_le (by omega)] at hdown

/-! ### The phases of the key wait -/

/-- The post-increment pc of a WAITING machine (R17). -/
theorem State.postPc_of_waiting {s : State} (hw : s.waiting = true) : s.postPc = s.pc := if_pos hw

/-- A WAITING machine does not pre-advance (R82). -/
theorem State.preAdvance_of_waiting {s : State} (hw : s.waiting = true) : s.preAdvance = s := by
  rw [preAdvance, postPc_of_waiting hw]

/-- A register written with what it holds. -/
theorem State.setReg_reg_self (s : State) (x : Nibble) : s.setReg x (s.reg x) = s := by
  simp [State.setReg, State.reg]

/-- A key's number is not the sentinel. -/
theorem ne_keySentinel_of_le {b : Byte} (hb : b.toNat ≤ 15) : b ≠ Config.keySentinel := by
  rintro rfl
  exact absurd hb (by decide)

/-- The idle phase moves pc back by the pre-advance's 2 (R233). -/
theorem exec_ldVxK_idle {s : State} (x : Nibble) (hw : s.waiting = false) :
    exec (.ldVxK x) s =
      .next { { s with keypad := 0#16 }.setReg x Config.keySentinel with waiting := true } := by
  have hback : s.postPc - 2#16 = s.pc := by simp [State.postPc, hw]
  have hf : ¬ FaultCondition (.ldVxK x) s := fun ⟨hwait, _⟩ => Bool.false_ne_true (hw.symm.trans hwait)
  obtain ⟨_, he⟩ := (exec_ldVxK_completes hf).resolve_right (by simp [hw])
  rw [he, hback]
  rfl

/-- The waiting phase scans the keys (R234). -/
theorem exec_ldVxK_waiting {s : State} {x : Nibble} (hw : s.waiting = true) (hx : s.reg x = Config.keySentinel) :
    exec (.ldVxK x) s = .next (s.setReg x (scanKeys s.keypad (s.reg x) 0 Config.numKeys)) := by
  have hf : ¬ FaultCondition (.ldVxK x) s := fun ⟨_, hne, _⟩ => hne hx
  simpa [hw, hx, State.preAdvance_of_waiting hw] using exec_ldVxK_completes hf

/-- The key-held phase while the key is down (R235). -/
theorem exec_ldVxK_held {s : State} {x : Nibble} (hw : s.waiting = true) (hkey : (s.reg x).toNat ≤ 15)
    (hdown : s.keyDown (s.reg x) = true) : exec (.ldVxK x) s = .next s := by
  have hf : ¬ FaultCondition (.ldVxK x) s := fun ⟨_, _, hbad⟩ => hkey.not_gt hbad
  simpa [hw, hdown, ne_keySentinel_of_le hkey, State.preAdvance_of_waiting hw] using exec_ldVxK_completes hf

/-- The key-held phase when the key is released (R235). -/
theorem exec_ldVxK_released {s : State} {x : Nibble} (hw : s.waiting = true) (hkey : (s.reg x).toNat ≤ 15)
    (hup : s.keyDown (s.reg x) = false) :
    exec (.ldVxK x) s = .next ({ s with waiting := false }.jump (s.pc + 2#16)) := by
  have hf : ¬ FaultCondition (.ldVxK x) s := fun ⟨_, _, hbad⟩ => hkey.not_gt hbad
  simpa [hw, hup, ne_keySentinel_of_le hkey, State.postPc_of_waiting hw, State.preAdvance_of_waiting hw] using
    exec_ldVxK_completes hf

/-- Settles O45: one clause per phase. -/
theorem waitForKey : Obligations.WaitForKey := by
  refine fun s x => ⟨toNat_familyF x 0x0A#8, fun hw => ?idle, fun hw hx hnone => ?noKey,
    fun hw hx k hk hdown hmax => ?pressed, exec_ldVxK_held, fun hw hkey hup => ?released,
    fun hw hx hbad => exec_faultsWith (i := .ldVxK x) ⟨hw, hx, hbad⟩ rfl⟩
  case idle =>
    have hframe := (withKeypad_onlyChanges s 0#16).trans
      ((setReg_onlyChanges _ x Config.keySentinel).trans (withWaiting_onlyChanges _ true))
    exact ⟨_, exec_ldVxK_idle x hw, rfl, State.reg_setReg_self _ x _, rfl, hframe⟩
  case noKey => rw [exec_ldVxK_waiting hw hx, hnone, scanKeys_zero, State.setReg_reg_self]
  case pressed =>
    refine ⟨_, exec_ldVxK_waiting hw hx, ?_, setReg_onlyChanges s x _⟩
    rw [State.reg_setReg_self, scanKeys_highest _ hk hdown hmax, BitVec.toNat_ofNat]
    omega
  case released =>
    exact ⟨_, exec_ldVxK_released hw hkey hup, rfl, rfl,
      (withWaiting_onlyChanges s false).trans (jump_onlyChanges _ _)⟩

end Sys2Proof.Machine
end

section
/-! ## Faults (spec/60_exceptions.md R261-R263)
No instruction may write the fault registers, so a fault is recorded by `State.takeFault` alone, of the fetch or of the
fetched instruction. `engineStep_cases` says so, and with it what a STEP can do. -/

namespace Sys2Proof.Machine

/-- A part that differs is one the change may write. -/
theorem OnlyChanges.of_not_same {P : Part → Prop} {s t : State} (h : OnlyChanges P s t) {p : Part}
    (hp : ¬ Part.Same s t p) : P p := by_contra fun hP => hp (h p hP)

/-! ### What an instruction does not write -/

theorem not_mayWrite_fault (s : State) (i : Instr) : ¬ MayWrite s i .fault := by
  cases i <;> simp [MayWrite]

theorem not_mayWrite_accI (s : State) (i : Instr) : ¬ MayWrite s i .accI := by
  cases i <;> simp [MayWrite]

theorem not_mayWrite_accT (s : State) (i : Instr) : ¬ MayWrite s i .accT := by
  cases i <;> simp [MayWrite]

/-- Only Fx15 writes DT. -/
theorem mayWrite_dt_iff (s : State) (i : Instr) : MayWrite s i .dt ↔ ∃ x, i = .ldDtVx x := by
  cases i <;> simp [MayWrite]

/-- Only Fx18 writes ST. -/
theorem mayWrite_st_iff (s : State) (i : Instr) : MayWrite s i .st ↔ ∃ x, i = .ldStVx x := by
  cases i <;> simp [MayWrite]

theorem exec_completes_fault {i : Instr} {s : State} (hf : ¬ FaultCondition i s) :
    ∃ t, exec i s = .next t ∧ t.fault = s.fault := by
  obtain ⟨t, he, hframe⟩ := exec_completes_onlyChanges hf
  exact ⟨t, he, hframe .fault (by simp [not_mayWrite_fault])⟩

/-- No instruction raises the cause of the fetch (R261). -/
theorem faultCause_ne_fetchOob (i : Instr) : FaultCause i ≠ .fetchOob := by
  cases i <;> exact nofun

/-! ### What a STEP can do -/

/-- FOP of a fault a STEP takes: the opcode at pc, or 0x0000 where it cannot be fetched (R262). -/
def State.faultOp (s : State) : Word := if s.pc.toNat + 1 < 4096 then s.fetchWord else 0x0000#16

/-- A STEP does nothing while FAULTED; otherwise the fetched instruction completes, or a fault is taken, with
FETCH_OOB as its cause exactly when nothing could be fetched (R81, R262, R267). -/
theorem engineStep_cases {s t : State} (he : engineStep s = .next t) :
    (s.fault.faulted = true ∧ t = s) ∨
    (s.fault.faulted = false ∧
      (OnlyChanges (fun p => MayWrite s (decodeWord s.fetchWord) p ∨ p = .pc) s t ∨
      ∃ cause info, cause ≠ .none ∧ (cause = .fetchOob ↔ 4096 ≤ s.pc.toNat + 1) ∧
        t = s.takeFault cause s.faultOp info)) := by
  cases hfault : s.fault.faulted with
  | true =>
    rw [engineStep_of_faulted hfault] at he
    cases he
    exact .inl ⟨rfl, rfl⟩
  | false =>
    refine .inr ⟨rfl, ?_⟩
    rcases Nat.lt_or_ge (s.pc.toNat + 1) 4096 with hpc | hpc
    · rw [engineStep_of_fetch hfault hpc] at he
      by_cases hf : FaultCondition (decodeWord s.fetchWord) s
      · rw [exec_of_faultCondition hf, Laws.encode_decodeWord] at he
        cases he
        have hop : s.faultOp = s.fetchWord := if_pos hpc
        exact .inr ⟨_, _, faultCause_ne_none hf, iff_of_false (faultCause_ne_fetchOob _) hpc.not_ge, by rw [hop]⟩
      · obtain ⟨u, hu, hframe⟩ := exec_completes_onlyChanges hf
        cases he.symm.trans hu
        exact .inl hframe
    · rw [engineStep_of_not_fetch hfault hpc] at he
      cases he
      have hop : s.faultOp = 0x0000#16 := if_neg hpc.not_gt
      exact .inr ⟨.fetchOob, _, nofun, iff_of_true rfl hpc, by rw [hop]⟩

/-- A STEP that makes a machine FAULTED is a fault entry, with FETCH_OOB as its cause exactly when nothing could be
fetched. -/
theorem engineStep_takes_fault {s t : State} (hf : s.fault.faulted = false) (he : engineStep s = .next t)
    (ht : t.fault.faulted = true) :
    ∃ cause info, cause ≠ .none ∧ (cause = .fetchOob ↔ 4096 ≤ s.pc.toNat + 1) ∧
      t = s.takeFault cause s.faultOp info := by
  rcases engineStep_cases he with ⟨hs, _⟩ | ⟨_, hframe | hfault⟩
  · exact absurd (hf.symm.trans hs) Bool.false_ne_true
  · have hkept : t.fault = s.fault := hframe .fault (by simp [not_mayWrite_fault])
    rw [hkept, hf] at ht
    exact absurd ht Bool.false_ne_true
  · exact hfault

theorem reply_step_of_faulted {s t : State} (he : engineStep s = .next t) (ht : t.fault.faulted = true) :
    reply .step s = .fault t.fault.cause.code t.fault.fpc t.fault.fop t.fault.info := by
  simp [reply, he, State.stepReply, ht]

/-- Settles O10: such a STEP is a fault entry, and its reply is read off the registers written. -/
theorem faultsArePrecise : Obligations.FaultsArePrecise := by
  intro s t hf he ht
  obtain ⟨cause, info, hcause, _, rfl⟩ := engineStep_takes_fault hf he ht
  exact ⟨cause, info, hcause, takeFault_faultsWith s cause _ info, reply_step_of_faulted he ht⟩

/-- Settles O11: an instruction takes the table's fault under its condition and leaves the fault registers otherwise,
and the fetch alone raises FETCH_OOB. -/
theorem faultsExactlyByTheTable : Obligations.FaultsExactlyByTheTable := by
  refine ⟨fun i s _ => ⟨fun hf => exec_faultsWith hf rfl, exec_completes_fault⟩,
    fun s => (fetchReadsBigEndianOrFaults s).2.2, fun s hf hpc => ?_, rfl, rfl, rfl, rfl, rfl, rfl, rfl⟩
  obtain ⟨t, he⟩ := engineStep_completes s
  refine ⟨t, he, fun ht => ?_⟩
  obtain ⟨cause, info, _, hfetch, rfl⟩ := engineStep_takes_fault hf he ht
  exact fun hc => hpc.not_ge (hfetch.1 hc)

/-- Settles O47: no instruction may write the accumulators, and only Fx15 and Fx18 may write a timer. -/
theorem directStepBypassesScheduler : Obligations.DirectStepBypassesScheduler := by
  intro s t he
  rcases engineStep_cases he with ⟨_, rfl⟩ | ⟨_, hframe | ⟨_, _, _, _, rfl⟩⟩
  · exact ⟨rfl, rfl, (absurd rfl ·), (absurd rfl ·)⟩
  · exact ⟨hframe .accI (by simp [not_mayWrite_accI]), hframe .accT (by simp [not_mayWrite_accT]),
      fun hdt => (mayWrite_dt_iff s _).1 ((hframe.of_not_same (p := .dt) hdt).resolve_right nofun),
      fun hst => (mayWrite_st_iff s _).1 ((hframe.of_not_same (p := .st) hst).resolve_right nofun)⟩
  · exact ⟨rfl, rfl, (absurd rfl ·), (absurd rfl ·)⟩

end Sys2Proof.Machine
end

section
/-! ## The scheduler (spec/60_exceptions.md R267, R274-R280)
EXECUTE(dt) is its timer part, and one STEP from there where a step is due. The timer part has one equation per branch
of the tick; in a FAULTED or a paused machine it is all that EXECUTE does. -/

namespace Sys2Proof.Machine

/-! ### The timer part -/

/-- The part of EXECUTE(dt) before the pause test (R280): both accumulators advance, then the timers tick if due. -/
def State.timerPart (s : State) (dt : Nat) : State := (s.accumulate dt).timerTick

theorem State.timerPart_of_early {s : State} {dt : Nat} (h : s.accT + dt < 16000) :
    s.timerPart dt = s.accumulate dt := if_neg h.not_ge

theorem State.timerPart_of_due {s : State} {dt : Nat} (h : 16000 ≤ s.accT + dt) :
    s.timerPart dt = { s.accumulate dt with dt := countDown s.dt, st := countDown s.st, accT := 0 } := if_pos h

theorem State.timerPart_accumulate (s : State) (d d' : Nat) :
    (s.accumulate d).timerPart d' = s.timerPart (d + d') := by
  simp only [timerPart, accumulate, Nat.add_assoc]

theorem toNat_countDown (b : Byte) : (countDown b).toNat = b.toNat - 1 := by
  unfold countDown
  split
  · next h => simp [h]
  · next h =>
    have hpos : b.toNat ≠ 0 := fun e => h (BitVec.eq_of_toNat_eq e)
    have hle : 1#8 ≤ b := Nat.one_le_iff_ne_zero.2 hpos
    exact BitVec.toNat_sub_of_le hle

theorem timerPart_onlyChanges (s : State) (dt : Nat) :
    OnlyChanges (fun p => p = .dt ∨ p = .st ∨ p = .accI ∨ p = .accT) s (s.timerPart dt) := by
  unfold State.timerPart State.timerTick
  intro p hp
  cases p with
  | dt | st | accI | accT => simp at hp
  | _ => split <;> rfl

/-- What the timer part of EXECUTE(dt) does (R275, R276). -/
theorem timerPart_spec (s : State) (dt : Nat) :
    (s.timerPart dt).accI = s.accI + dt ∧
    (s.timerPart dt).accT = (if 16000 ≤ s.accT + dt then 0 else s.accT + dt) ∧
    (s.timerPart dt).dt.toNat = (if 16000 ≤ s.accT + dt then s.dt.toNat - 1 else s.dt.toNat) ∧
    (s.timerPart dt).st.toNat = (if 16000 ≤ s.accT + dt then s.st.toNat - 1 else s.st.toNat) ∧
    OnlyChanges (fun p => p = .dt ∨ p = .st ∨ p = .accI ∨ p = .accT) s (s.timerPart dt) := by
  have hframe := timerPart_onlyChanges s dt
  rcases Nat.lt_or_ge (s.accT + dt) 16000 with hearly | hdue
  · simpa [State.timerPart_of_early hearly, hearly.not_ge, State.accumulate] using hframe
  · simpa [State.timerPart_of_due hdue, hdue, toNat_countDown, State.accumulate] using hframe

/-! ### The step part -/

/-- A step is due when the machine is not paused and ACC_I, with dt added, has reached the tick duration (R275, R277,
R278). -/
def State.StepDueAfter (s : State) (dt : Nat) : Prop :=
  0 < s.cfg.ips ∧ 1000000 / s.cfg.ips.toNat ≤ s.accI + dt

theorem stepDue_timerPart_iff (s : State) (dt : Nat) : (s.timerPart dt).stepDue = true ↔ s.StepDueAfter dt := by
  obtain ⟨haccI, _, _, _, hframe⟩ := timerPart_spec s dt
  have hcfg : (s.timerPart dt).cfg = s.cfg := hframe .cfg (by simp)
  simp [State.stepDue, State.StepDueAfter, tickUs, haccI, hcfg]

theorem execute_of_not_due {s : State} {dt : Nat} (h : ¬ s.StepDueAfter dt) :
    execute dt s = .next (s.timerPart dt) :=
  if_neg (mt (stepDue_timerPart_iff s dt).1 h)

theorem execute_of_paused {s : State} (h : s.cfg.ips ≤ 0) (dt : Nat) : execute dt s = .next (s.timerPart dt) :=
  execute_of_not_due fun ⟨hrun, _⟩ => h.not_gt hrun

theorem execute_of_due {s v : State} {dt : Nat} (h : s.StepDueAfter dt)
    (hv : engineStep (s.timerPart dt) = .next v) : execute dt s = .next v.settleStep := by
  have hdue : (s.accumulate dt).timerTick.stepDue = true := (stepDue_timerPart_iff s dt).2 h
  have hv : engineStep (s.accumulate dt).timerTick = .next v := hv
  simp only [execute, hdue, if_true, hv]

theorem State.settleStep_of_faulted {s : State} (h : s.fault.faulted = true) : s.settleStep = s := if_pos h

theorem State.settleStep_accI {s : State} (h : s.fault.faulted = false) : s.settleStep.accI = 0 := by
  simp [settleStep, h]

theorem settleStep_onlyChanges (s : State) : OnlyChanges (· = .accI) s s.settleStep := by
  unfold State.settleStep
  intro p hp
  cases p with
  | accI => exact absurd rfl hp
  | _ => split <;> rfl

/-- Settles O46: the state after the timer part is the one the pause test and the STEP see. -/
theorem executeFollowsSchedule : Obligations.ExecuteFollowsSchedule := by
  intro s dt
  obtain ⟨haccI, haccT, hdt, hst, hframe⟩ := timerPart_spec s dt
  refine ⟨_, haccI, haccT, hdt, hst, hframe, fun hpaused => execute_of_paused hpaused dt,
    fun _ hearly => execute_of_not_due fun ⟨_, hlate⟩ => hearly.not_ge hlate, fun hrun hlate => ?_⟩
  obtain ⟨v, hv⟩ := engineStep_completes (s.timerPart dt)
  have he : serve (.execute dt) s = .next v.settleStep := execute_of_due ⟨hrun, hlate⟩ hv
  refine ⟨v, hv, fun hf => ?_, fun hf => ⟨_, he, State.settleStep_accI hf, settleStep_onlyChanges v⟩⟩
  rwa [State.settleStep_of_faulted hf] at he

/-! ### A FAULTED machine -/

theorem State.timerPart_fault (s : State) (dt : Nat) : (s.timerPart dt).fault = s.fault :=
  timerPart_onlyChanges s dt .fault (by simp)

/-- The STEP of a FAULTED machine writes nothing, so EXECUTE is its timer part (R267). -/
theorem execute_of_faulted {s : State} (h : s.fault.faulted = true) (dt : Nat) :
    execute dt s = .next (s.timerPart dt) := by
  have hf : (s.timerPart dt).fault.faulted = true := by rwa [State.timerPart_fault]
  by_cases hdue : s.StepDueAfter dt
  · rw [execute_of_due hdue (engineStep_of_faulted hf), State.settleStep_of_faulted hf]
  · exact execute_of_not_due hdue

/-- While FAULTED every host call but RESET keeps the fault registers (R267). -/
theorem serve_keeps_fault {s : State} (h : s.fault.faulted = true) {c : HostCall} (hc : c ≠ .reset) :
    ∃ t, serve c s = .next t ∧ t.fault = s.fault := by
  cases c with
  | execute dt => exact ⟨_, execute_of_faulted h dt, s.timerPart_fault dt⟩
  | step => exact ⟨s, engineStep_of_faulted h, rfl⟩
  | reset => exact absurd rfl hc
  | load image => exact ⟨_, rfl, s.hostLoad_fault image⟩
  | writeKeypad | writeConfig | readFb | readStatus | subscribe => exact ⟨_, rfl, rfl⟩

/-- Settles O8: RESET alone writes the fault registers, and EXECUTE is its timer part. -/
theorem faultedMachineOnlyTicks : Obligations.FaultedMachineOnlyTicks := fun s h =>
  have hstep := engineStep_of_faulted h
  ⟨hstep, reply_step_of_faulted hstep h, fun _ => serve_keeps_fault h, ⟨_, rfl, rfl⟩,
    fun dt => ⟨_, execute_of_faulted h dt, timerPart_spec s dt⟩⟩

/-! ### A paused machine -/

theorem withCalls_onlyChanges (s : State) (calls : List HostCall) :
    OnlyChanges (· = .calls) s { s with calls := calls } := fun p hp => by
  cases p with
  | calls => exact absurd rfl hp
  | _ => rfl

/-- A run begins with its first step. -/
theorem run_succ_of_step {M : Host.Core} {s t : M.State} (h : M.step s = .next t) (k : Nat) :
    M.run (k + 1) s = M.run k t := by
  rw [Host.Core.run, h]

/-- In a paused machine calls of 1000 microseconds that do not pass the next timer tick are together one timer part:
the accumulators take the sum of the deltas, and only the last call can reach the tick (R279). -/
theorem run_executes {s : State} {n : Nat} {rest : List HostCall} (hpaused : s.cfg.ips ≤ 0)
    (hbefore : s.accT < 16000) (hwithin : s.accT + 1000 * n ≤ 16000)
    (hcalls : s.calls = List.replicate n (.execute 1000) ++ rest) :
    core.run n s = .next (State.timerPart { s with calls := rest } (1000 * n)) := by
  induction n generalizing s with
  | zero =>
    obtain rfl : s.calls = rest := hcalls
    have hsame : s.timerPart 0 = s := State.timerPart_of_early hbefore
    exact congrArg Host.Outcome.next hsame.symm
  | succ n ih =>
    let u : State := { s with calls := List.replicate n (.execute 1000) ++ rest }
    have hstep : step s = .next (u.timerPart 1000) :=
      (step_of_calls_cons hcalls).trans (execute_of_paused (s := u) hpaused 1000)
    rw [run_succ_of_step (M := core) hstep]
    rcases Nat.lt_or_ge (s.accT + 1000) 16000 with hearly | hdue
    · have hrest : s.accT + 1000 + 1000 * n ≤ 16000 := by omega
      rw [State.timerPart_of_early (s := u) hearly, ih (s := u.accumulate 1000) hpaused hearly hrest rfl,
        Nat.mul_succ, Nat.add_comm (1000 * n), ← State.timerPart_accumulate]
      rfl
    · obtain rfl : n = 0 := by omega
      rfl

/-- Settles O48: the calls are together the timer part of EXECUTE(1000 n), where the tick is due for n = 16 alone. -/
theorem timersTickEverySixteenCalls : Obligations.TimersTickEverySixteenCalls := by
  intro s n rest hpaused haccT hn hcalls
  have hrun := run_executes hpaused (by omega) (by omega) hcalls
  obtain ⟨hI, hT, hdt, hst, hframe⟩ := timerPart_spec { s with calls := rest } (1000 * n)
  have hdue : 16000 ≤ s.accT + 1000 * n ↔ n = 16 := by omega
  simp only [hdue] at hT hdt hst
  refine ⟨_, hrun, hdt, hst, by rw [hT, haccT, Nat.zero_add], hI, hframe .calls (by simp),
    ((withCalls_onlyChanges s rest).trans hframe).mono ?_⟩
  rintro p (rfl | rfl | rfl | rfl | rfl) <;> simp

end Sys2Proof.Machine
end

section
/-! ## Host writes and READ_STATUS (spec/60_exceptions.md R281-R287) -/

namespace Sys2Proof.Machine

theorem withCfg_onlyChanges (s : State) (cfg : Cfg) : OnlyChanges (· = .cfg) s { s with cfg := cfg } := fun p hp => by
  cases p with
  | cfg => exact absurd rfl hp
  | _ => rfl

theorem withSubscribers_onlyChanges (s : State) (subs : List Nat) :
    OnlyChanges (· = .subscribers) s { s with subscribers := subs } := fun p hp => by
  cases p with
  | subscribers => exact absurd rfl hp
  | _ => rfl

/-- Settles O53: each call is one record update. -/
theorem hostWritesOneThing : Obligations.HostWritesOneThing := fun s =>
  ⟨fun k => ⟨_, rfl, rfl, withKeypad_onlyChanges s k⟩,
    fun ips acc6 accE => ⟨_, rfl, rfl, rfl, rfl, withCfg_onlyChanges s ⟨ips, acc6, accE⟩⟩,
    fun cb => ⟨_, rfl, rfl, withSubscribers_onlyChanges s (s.subscribers ++ [cb])⟩⟩

/-- Settles O55: the sound output is the test of ST. -/
theorem readStatus : Obligations.ReadStatus := fun s => ⟨rfl, s.soundActive, rfl, decide_eq_true_iff⟩

end Sys2Proof.Machine
end

section
/-! ## Power-on, RESET and LOAD (spec/10_state.md R44, spec/70_reset_and_hazards.md R300-R311) -/

namespace Sys2Proof.Machine

/-! ### LOAD -/

/-- LOAD of an image that fits writes the image's places and nothing else (R304, R310). -/
theorem hostLoad_onlyChanges (s : State) {image : List Byte} (h : image.length ≤ 3584) :
    OnlyChanges (fun p => ∃ k, k < image.length ∧ p = .byte (0x200 + k)) s (s.hostLoad image) :=
  State.hostLoad_of_length_le s h ▸ storeBytes_onlyChanges s 0x200 image

theorem not_imageFits_of_too_long {image : List Byte} (h : 3584 < image.length) : ¬ imageFits image = true :=
  fun hfits => h.not_ge (of_decide_eq_true hfits)

/-- LOAD of an image that does not fit changes nothing (R311). -/
theorem State.hostLoad_of_too_long (s : State) {image : List Byte} (h : 3584 < image.length) : s.hostLoad image = s :=
  if_neg (not_imageFits_of_too_long h)

theorem reply_load_of_length_le (s : State) {image : List Byte} (h : image.length ≤ 3584) :
    reply (.load image) s = .ok :=
  if_pos (decide_eq_true h)

theorem reply_load_of_too_long (s : State) {image : List Byte} (h : 3584 < image.length) :
    reply (.load image) s = .fileTooBig :=
  if_neg (not_imageFits_of_too_long h)

/-- Settles O51: the length test decides between storing the image and keeping the state. -/
theorem loadCopiesImage : Obligations.LoadCopiesImage := fun s _ =>
  ⟨fun hfits => ⟨reply_load_of_length_le s hfits, _, rfl, fun _ hk => s.read_hostLoad hfits hk,
      hostLoad_onlyChanges s hfits⟩,
    fun hlong => ⟨reply_load_of_too_long s hlong, congrArg Host.Outcome.next (s.hostLoad_of_too_long hlong)⟩⟩

/-! ### The values at power-on that RESET restores (R44) -/

/-- Above FONT the contents at reset are 0 (R44). -/
theorem resetByte_of_ge {a : Nat} (h : 80 ≤ a) : Config.resetByte a = 0#8 :=
  List.getD_eq_default Config.font 0#8 h

theorem State.powerOn_reg (ips0 : Int) (acc60 accE0 : Bool) (x : Nibble) :
    (State.powerOn ips0 acc60 accE0).reg x = 0#8 :=
  Vector.getElem_replicate x.isLt

theorem State.powerOn_stack (ips0 : Int) (acc60 accE0 : Bool) (j : Fin 16) :
    (State.powerOn ips0 acc60 accE0).stack[j.val] = 0#16 :=
  Vector.getElem_replicate j.isLt

/-- Settles O49: memory lists no cell, so it reads as FONT and 0 above it; every array is filled with one value, and
the other fields are as `State.powerOn` writes them. -/
theorem powerOnState : Obligations.PowerOnState := by
  rintro ips0 acc60 accE0 _ rfl
  have hreg := State.powerOn_reg ips0 acc60 accE0
  have hstack := State.powerOn_stack ips0 acc60 accE0
  exact ⟨rfl, rfl, hreg, rfl, rfl, rfl, hstack, rfl, rfl, fun _ _ => rfl, fun _ hram _ => resetByte_of_ge hram,
    pixel_black, rfl, rfl, rfl, rfl, rfl, rfl, rfl, rfl, rfl, rfl, rfl, rfl, rfl⟩

/-- Settles O50: RESET is the power-on state with the fields of R301 carried over, so the arrays, memory and the screen
are those of power-on. -/
theorem resetRestoresMachineState : Obligations.ResetRestoresMachineState := by
  intro s
  have hreg := State.powerOn_reg s.cfg.ips s.cfg.acc6 s.cfg.accE
  have hstack := State.powerOn_stack s.cfg.ips s.cfg.acc6 s.cfg.accE
  exact ⟨s.hostReset, rfl, rfl, rfl, hreg, rfl, rfl, rfl, hstack, rfl, rfl, fun _ _ => rfl,
    fun _ hram _ => resetByte_of_ge hram, pixel_black, rfl, rfl, rfl, rfl, rfl, rfl, rfl, rfl⟩

end Sys2Proof.Machine
end
